-- ==== Sys2Proof/Word.lean ====
section
/-! DEFINITION. The word types of the engine: the payload byte (u8), the command and response word, the
64-bit lane and the register file of 25 lanes (00_scope.md R6, 10_state.md R9, 30_encoding.md R39).
Every value is unsigned; arithmetic on a lane is modulo 2^64 (00_scope.md R6). -/
namespace Sys2Proof

/-- A payload byte, the u8 of 00_scope.md R6. -/
abbrev Byte := BitVec 8

/-- A command word CW or a response word RSP: exactly 32 bits (30_encoding.md R38, R39). -/
abbrev Word := BitVec 32

/-- One lane of the state, the u64 of 00_scope.md R6. -/
abbrev Lane := BitVec 64

/-- The register file `S.lane[0..24]`: 25 lanes, 1600 bits (10_state.md R9). -/
abbrev Lanes := Vector Lane 25

/-- The cursor POS, typed as a number below 168 as 10_state.md R12 and 93_implementation_defined.md U4
allow: the values 168..255 of the 8-bit register are never held. -/
abbrev Pos := Fin 168

end Sys2Proof
end

