-- ==== Sys2Proof/Config.lean ====
section
/-! DEFINITION. What is fixed for the machine: the hardwired constants of 00_scope.md R2 and 10_state.md R17,
and the one free value the spec leaves open (93_implementation_defined.md U12). The parameters N_INST,
BUS_PACKING and PERM_LATENCY of 00_scope.md R5 are open: N_INST is an argument of Machine/Platform.lean,
BUS_PACKING stays outside (the model sees bytes), PERM_LATENCY is not modelled (70_reset_and_hazards.md R99). -/
namespace Sys2Proof.Config

/-- RATE, in bytes: hardwired (00_scope.md R2, 10_state.md R17). -/
abbrev rate : Nat := 168

/-- The rate region in lanes, RATE/8 (10_state.md R11). -/
abbrev rateLanes : Nat := 21

/-- CAPACITY in bits, 1600 − 1344 (00_scope.md R2). -/
abbrev capacityBits : Nat := 256

/-- DS, the domain-separation padding byte: hardwired (00_scope.md R2, 10_state.md R17). -/
abbrev ds : Byte := 0x1F

/-- The final padding bit, XORed into lane RATE/8 − 1 = 20 (00_scope.md R2). -/
abbrev finalBit : Lane := 0x8000000000000000

/-- ROUNDS: hardwired (00_scope.md R2, 10_state.md R17). -/
abbrev rounds : Nat := 24

/-- The largest LEN one command carries, 2^24 − 1 (30_encoding.md R34). -/
abbrev maxLen : Nat := 16777215

/-- FREE VALUE: the output bytes a host may have received from a command that reset abandoned, one list per
draw (93_implementation_defined.md U12: any value, and not part of any output stream). It has no body, so no
proof can see a byte of it. All instances of a platform draw from it, each at its own counter (DESIGN CHOICE, log
entry 3). -/
opaque abandonedBytes : Nat → List Byte

end Sys2Proof.Config
end

