-- ==== Sys2Proof/Syntax.lean ====
section
/-! DEFINITION. The commands of the engine, one constructor per row of the opcode table
(30_encoding.md R35; 46_xof_facade.md R79, 43_sponge_absorb.md R63, 45_sponge_squeeze.md R74).
Finalize, the permutation and the lane codec have no command word (00_scope.md R4 (c), 44_sponge_finalize.md). -/
namespace Sys2Proof

/-- The three commands. LEN is an unsigned count of bytes (30_encoding.md R34), so it is a `Nat`;
that it fits the 24-bit field is `Instr.wellFormed`. -/
inductive Instr where
  /-- `INIT`: start a new session (46_xof_facade.md R79). -/
  | init
  /-- `ABSORB LEN`: absorb LEN payload bytes (43_sponge_absorb.md R63). -/
  | absorb (len : Nat)
  /-- `SQUEEZE LEN`: produce LEN output bytes (45_sponge_squeeze.md R74). -/
  | squeeze (len : Nat)
  deriving DecidableEq, Repr

end Sys2Proof
end

