-- ==== Sys2Proof/WellFormed.lean ====
section
/-! DEFINITION. When a command can be written as a command word: its LEN fits CW[31:8]
(30_encoding.md R33, R34). INIT has no operand. -/
namespace Sys2Proof

/-- LEN is a 24-bit count, 0..16,777,215 (30_encoding.md R34). -/
def Instr.wellFormed : Instr → Bool
  | .init => true
  | .absorb len => decide (len ≤ Config.maxLen)
  | .squeeze len => decide (len ≤ Config.maxLen)

end Sys2Proof
end

