-- ==== Sys2Proof/Decode.lean ====
section
/-! DEFINITION. The command word: its fields, the decoder (total over all 2^32 words, refusing by name) and,
after it, the encoder (30_encoding.md R33 to R36, R39, R43). -/
namespace Sys2Proof

/-- Field OP = CW[3:0] (30_encoding.md R33). -/
def cwOp (cw : Word) : Nat := (cw.extractLsb' 0 4).toNat

/-- Field RSV = CW[7:4] (30_encoding.md R33). -/
def cwRsv (cw : Word) : Nat := (cw.extractLsb' 4 4).toNat

/-- Field LEN = zext_32(CW[31:8]), an unsigned byte count with no scaling (30_encoding.md R34). -/
def cwLen (cw : Word) : Nat := (cw.extractLsb' 8 24).toNat

/-- Why a command word is illegal: the three causes of 30_encoding.md R36. All of them get the status
ERR_ILLEGAL; the name only says which clause was met first in the order of R39. -/
inductive IllegalWord where
  /-- RSV ≠ 0: clause (b). -/
  | reservedBits
  /-- OP is 0x0 or in 0x4..0xF: clause (a). -/
  | reservedOp
  /-- INIT with LEN ≠ 0: clause (c). -/
  | initWithLength
  deriving DecidableEq, Repr

/-- `decode` of 30_encoding.md R39: every word is exactly one of INIT, ABSORB LEN, SQUEEZE LEN or illegal. -/
def decode (cw : Word) : Except IllegalWord Instr :=
  if cwRsv cw ≠ 0 then .error .reservedBits
  else if cwOp cw = 1 then
    if cwLen cw = 0 then .ok .init else .error .initWithLength
  else if cwOp cw = 2 then .ok (.absorb (cwLen cw))
  else if cwOp cw = 3 then .ok (.squeeze (cwLen cw))
  else .error .reservedOp

/-- A command word from its OP and LEN fields, RSV = 0000 (30_encoding.md R33). -/
def commandWord (op len : Nat) : Word := BitVec.ofNat 32 (len * 0x100 + op)

/-- The encoder: INIT = 0x00000001, ABSORB L = 0x00000002 + L·0x100, SQUEEZE L = 0x00000003 + L·0x100
(30_encoding.md R43). -/
def encode : Instr → Word
  | .init => commandWord 1 0
  | .absorb len => commandWord 2 len
  | .squeeze len => commandWord 3 len

/-- The instruction the decoder reads from an opcode-table word: bit 0 of `w` is bit 0 of CW, and the bits
above `nbits` are 0. Every command word is exactly 32 bits (30_encoding.md R39). -/
def decodeTableWord (nbits w : Nat) : Option Instr :=
  (decode (BitVec.ofNat 32 (w % 2 ^ nbits))).toOption

end Sys2Proof
end

