-- ==== Sys2Proof/Machine/State.lean ====
section
/-! DEFINITION. The state of one engine instance and of the host's side of its transport, the reasons a run
can stop, and the state after reset (10_state.md R9, R12, R13, R17 to R20; 30_encoding.md R32).

The engine's whole architectural state is S, POS and PHASE (10_state.md R17). The other fields hold what the
spec puts outside the engine: the host's commands still to be issued, the payload of the command being
carried out, the replies the host has seen, the index of the command (10_state.md R15), and the counters of
the model's own (log entries 3 and 4). -/
namespace Sys2Proof.Machine

/-- PHASE, a 1-bit register: 0 = Absorbing, 1 = Squeezing (10_state.md R13). -/
inductive Phase where
  | absorbing
  | squeezing
  deriving DecidableEq, Repr

/-- STATUS of a response word (60_exceptions.md R83). The code 3 is never produced, so it has no constructor. -/
inductive Status where
  /-- 0: every legal command that is carried out. -/
  | ok
  /-- 1: an illegal command word (30_encoding.md R36). -/
  | errIllegal
  /-- 2: ABSORB while PHASE = Squeezing (43_sponge_absorb.md R64). -/
  | errPhase
  deriving DecidableEq, Repr

/-- The engine's registers (10_state.md R17). -/
structure Engine where
  /-- S, the 25 lanes (10_state.md R9). -/
  lanes : Lanes
  /-- POS, the cursor (10_state.md R12). -/
  pos : Pos
  /-- PHASE (10_state.md R13). -/
  phase : Phase
  /-- MODEL'S OWN counter, no register of the engine: how many KeccakF evaluations completed commands have
  run. It lets the counts of 43_sponge_absorb.md R63, 45_sponge_squeeze.md R74 and 70_reset_and_hazards.md R100
  be stated. Nothing reads it. Log entry 4. -/
  permCount : Nat
  deriving DecidableEq, Repr

/-- One command as the host issues it: the command word and its input payload (30_encoding.md R32, parts 1 and 2). -/
structure Command where
  word : Word
  payload : List Byte
  deriving DecidableEq, Repr

/-- What the host does next at the engine's interface. -/
inductive HostEvent where
  /-- Issue a command after the response to the previous one was delivered (70_reset_and_hazards.md R97 (a)). -/
  | command (c : Command)
  /-- Issue a command while the previous one is outstanding: breaks duty (a) of 70_reset_and_hazards.md R97.
  Log entry 8. -/
  | earlyCommand (c : Command)
  /-- Reset, between commands (70_reset_and_hazards.md R95). -/
  | reset
  /-- Issue a command, then reset while it is being carried out: it is abandoned (70_reset_and_hazards.md R95). -/
  | resetDuring (c : Command)
  deriving DecidableEq, Repr

/-- What the host sees of one command (46_xof_facade.md R82). -/
inductive Reply where
  /-- The response word and the output payload (30_encoding.md R32, parts 3 and 4). -/
  | response (rsp : Word) (out : List Byte)
  /-- The command was abandoned by reset: no response word; `received` is what the host may have received
  and must discard (70_reset_and_hazards.md R95), a free value (93_implementation_defined.md U12). -/
  | abandoned (received : List Byte)
  deriving DecidableEq, Repr

/-- The state of one engine instance and its transport. Plain data. -/
structure State where
  /-- The registers of the engine. -/
  engine : Engine
  /-- The host's next events, in issue order (20_memory.md R29). -/
  pending : List HostEvent
  /-- The input payload of the command being carried out: what `In(n)` takes (00_scope.md R7). Empty between commands. -/
  payload : List Byte
  /-- What the host has seen so far, oldest first. It keeps every non-OK status to the end of the run
  (60_exceptions.md R87). -/
  replies : List Reply
  /-- The index of the command in the host's command list, the only program counter there is (10_state.md R15). -/
  cmdIndex : Nat
  /-- MODEL'S OWN counter: how many free values have been drawn from `Config.abandonedBytes`. Log entry 3. -/
  freeDraws : Nat
  deriving DecidableEq, Repr

/-- Reasons the machine could stop with a fault. There are none: the engine has no traps, and an error is a
response after which the next command is accepted normally (60_exceptions.md R87). An error status is recorded
in `State.replies`, not a stop. Safe: no outcome of the hardware is hidden by this type. Log entry 14. -/
inductive Fault where
  deriving DecidableEq, Repr

/-- Reasons the model gives a run no step. -/
inductive Refusal where
  /-- Raised by an arm of `exec` whose instruction has no meaning yet; no arm raises it. Safe. -/
  | notModelled (mnemonic : String)
  /-- Raised by every meaning, and by an illegal word, when the input payload does not have the length the
  command word fixes (30_encoding.md R37, R40; 93_implementation_defined.md U10). Safe: the host broke a duty,
  and the spec says the model refuses the run. -/
  | payloadLength
  /-- Raised by `step` when the host issues a command before the previous response was delivered
  (70_reset_and_hazards.md R97 (a); 93_implementation_defined.md U11). Safe: as above. -/
  | earlyCommand
  deriving DecidableEq, Repr

/-- The registers after reset: all lanes 0, POS = 0, PHASE = Absorbing (10_state.md R19). -/
def Engine.reset : Engine :=
  { lanes := Vector.replicate 25 0, pos := 0, phase := .absorbing, permCount := 0 }

/-- The machine right after reset: the registers of 10_state.md R19, no command issued yet (20_memory.md R28),
nothing seen by the host (DESIGN CHOICE, log entry 1), the model's own counters at 0 (DESIGN CHOICE, log entries 3
and 4). -/
def State.reset : State :=
  { engine := Engine.reset, pending := [], payload := [], replies := [], cmdIndex := 0, freeDraws := 0 }

end Sys2Proof.Machine
end

