-- ==== Sys2Proof/Machine/Flags.lean ====
section
/-! DEFINITION. The engine has no flags (10_state.md R16). What a command reports is its response word: STATUS,
PHASE and POS (30_encoding.md R38, 60_exceptions.md R83). -/
namespace Sys2Proof.Machine

/-- The code of a status, RSP[1:0] (60_exceptions.md R83). -/
def statusCode : Status → Nat
  | .ok => 0
  | .errIllegal => 1
  | .errPhase => 2

/-- The code of a phase, RSP[4] (10_state.md R13). -/
def phaseCode : Phase → Nat
  | .absorbing => 0
  | .squeezing => 1

/-- `RSP = zext_32(POS) << 8 | zext_32(PHASE) << 4 | STATUS` (30_encoding.md R38). -/
def responseWord (st : Status) (phase : Phase) (pos : Pos) : Word :=
  (BitVec.ofNat 32 pos.val <<< 8) ||| (BitVec.ofNat 32 (phaseCode phase) <<< 4)
    ||| BitVec.ofNat 32 (statusCode st)

/-- Field STATUS = RSP[1:0] (30_encoding.md R38). -/
def rspStatus (rsp : Word) : Nat := (rsp.extractLsb' 0 2).toNat

/-- Field PHASE = RSP[4] (30_encoding.md R38). -/
def rspPhase (rsp : Word) : Nat := (rsp.extractLsb' 4 1).toNat

/-- Field POS = RSP[15:8] (30_encoding.md R38). -/
def rspPos (rsp : Word) : Nat := (rsp.extractLsb' 8 8).toNat

/-- The bits the response word reads as zero: RSP[3:2], RSP[7:5], RSP[31:16] (30_encoding.md R38). -/
def rspReserved (rsp : Word) : Word := rsp &&& 0xFFFF00EC

/-- Reading a response word as the host does. A word with STATUS = 3, a reserved bit set or POS above 167 is not
a response of this hardware (93_implementation_defined.md U3, U4, U5). -/
def readResponse (rsp : Word) : Option (Status × Phase × Pos) :=
  if rspReserved rsp ≠ 0 then none
  else if h : rspPos rsp < 168 then
    let phase := if rspPhase rsp = 1 then Phase.squeezing else Phase.absorbing
    match rspStatus rsp with
    | 0 => some (.ok, phase, ⟨rspPos rsp, h⟩)
    | 1 => some (.errIllegal, phase, ⟨rspPos rsp, h⟩)
    | 2 => some (.errPhase, phase, ⟨rspPos rsp, h⟩)
    | _ => none
  else none

end Sys2Proof.Machine
end

