-- ==== Sys2Proof/Machine/Operands.lean ====
section
/-! DEFINITION. The operand forms: there is one, LEN (30_encoding.md R34), and the two payloads whose lengths
the command word fixes (30_encoding.md R37). No register number, address or immediate exists. -/
namespace Sys2Proof.Machine

/-- The input payload length a command word fixes: LEN when OP = 0x2, else 0. It covers the illegal words too:
an ABSORB word with RSV ≠ 0 still carries LEN bytes (30_encoding.md R37). -/
def inLength (cw : Word) : Nat := if cwOp cw = 2 then cwLen cw else 0

/-- The input payload length of a legal command (30_encoding.md R37). -/
def instrInLength : Instr → Nat
  | .init => 0
  | .absorb len => len
  | .squeeze _ => 0

/-- The output payload length of a command word carried out with status `st`: LEN for SQUEEZE with status OK,
else 0 (30_encoding.md R37). -/
def outLength (cw : Word) (st : Status) : Nat :=
  match st, decode cw with
  | .ok, .ok (.squeeze len) => len
  | _, _ => 0

/-- A command is correctly framed when its payload has the length its word fixes (30_encoding.md R37, R40). -/
def Command.framed (c : Command) : Bool := c.payload.length == inLength c.word

end Sys2Proof.Machine
end

