-- ==== Sys2Proof/Machine/Ops.lean ====
section
/-! DEFINITION. The named operations everything else is built from: reading and writing a lane, the byte view of
S (10_state.md R10; 20_memory.md R23, R24), ending a command with its response (00_scope.md R7), and taking an
error, `raise Error(kind)` (60_exceptions.md R84), which is all this engine has in place of an exception.

There is no addressable memory (20_memory.md R21): the byte view of S is the only byte-addressed storage. -/
namespace Sys2Proof.Machine

/-- Entry `i` of a table or register file. Every use has `i` in range; outside it the answer is `d`
(DESIGN CHOICE, log entry 15). -/
def nth {α : Type} {n : Nat} (d : α) (v : Vector α n) (i : Nat) : α := v.toArray.toList.getD i d

/-- `S.lane[i]` (10_state.md R9, 00_scope.md R7), and in the same way a lane of any table of lanes. -/
def lane {n : Nat} (A : Vector Lane n) (i : Nat) : Lane := nth 0 A i

/-- `S.lane[i] <- v` (00_scope.md R7). -/
def setLane (A : Lanes) (i : Nat) (v : Lane) : Lanes := A.setIfInBounds i v

/-- `k v`, with `v` brought to a numeral first when Lean's kernel evaluates it. It is `k v` and nothing else. -/
def withLane {α : Type} (v : Lane) (k : Lane → α) : α :=
  Nat.casesOn (motive := fun _ => α) v.toNat (k 0) (fun n => k (BitVec.ofNat 64 (n + 1)))

/-- The lanes `f 0 … f (k − 1)` in front of `acc`, the last one computed first. -/
def tabulateList {n : Nat} (f : Fin n → Lane) : (k : Nat) → k ≤ n → List Lane → List Lane
  | 0, _, acc => acc
  | k + 1, h, acc => withLane (f ⟨k, h⟩) fun v => tabulateList f k (Nat.le_of_succ_le h) (v :: acc)

theorem withLane_eq {α : Type} (v : Lane) (k : Lane → α) : withLane v k = k v := by
  unfold withLane
  rcases h : v.toNat with _ | n
  · exact congrArg k (BitVec.eq_of_toNat_eq (by simp [h]))
  · refine congrArg k (BitVec.eq_of_toNat_eq ?_)
    have := v.isLt
    simp only [h, BitVec.toNat_ofNat]
    omega

theorem tabulateList_length {n : Nat} (f : Fin n → Lane) (k : Nat) (h : k ≤ n) (acc : List Lane) :
    (tabulateList f k h acc).length = k + acc.length := by
  induction k generalizing acc with
  | zero => simp [tabulateList]
  | succ k ih =>
    simp only [tabulateList, withLane_eq, ih, List.length_cons]
    omega

/-- The lanes `f 0 … f (n − 1)`: a whole new array, every lane computed from the complete input
(42_keccak_permutation.md R49). -/
def tabulate {n : Nat} (f : Fin n → Lane) : Vector Lane n :=
  ⟨⟨tabulateList f n (Nat.le_refl n) []⟩, by simp [tabulateList_length]⟩

/-- Byte `j` of a lane, bits [8j+7 : 8j] (20_memory.md R22). -/
def laneByte (v : Lane) (j : Nat) : Byte := v.extractLsb' (8 * j) 8

/-- `ReadByte(k)`, which is `S.byte[k]` (20_memory.md R24, 10_state.md R10). -/
def readByte (S : Lanes) (k : Nat) : Byte := laneByte (lane S (k / 8)) (k % 8)

/-- `XorByte(k, b)`: `S.lane[i] <- S.lane[i] ^ (zext_64(b) << 8j)`, i = k div 8, j = k mod 8 (20_memory.md R23). -/
def xorByte (S : Lanes) (k : Nat) (b : Byte) : Lanes :=
  setLane S (k / 8) (lane S (k / 8) ^^^ (b.setWidth 64 <<< (8 * (k % 8))))

/-- `respond(status)`: the command ends with its response word and output payload, the engine at `e`. Its input
payload is used up, and the command index advances by exactly one, whatever the status
(00_scope.md R7, 10_state.md R15, 30_encoding.md R38). -/
def respond (st : Status) (out : List Byte) (e : Engine) (s : State) : State :=
  { s with
    engine := e
    payload := []
    cmdIndex := s.cmdIndex + 1
    replies := s.replies ++ [.response (responseWord st e.phase e.pos) out] }

/-- `raise Error(kind)`: no change of S, POS or PHASE, no KeccakF, no Finalize, no output byte; the payload is
discarded and the command ends with its response word (60_exceptions.md R84). -/
def raiseError (st : Status) (s : State) : State := respond st [] s.engine s

/-- Carry on only if the input payload has the length `n` the command word fixes; otherwise the model refuses
the run and does not guess a state (30_encoding.md R40). -/
def withPayload (n : Nat) (s : State) (k : State) : Host.Outcome State Fault Refusal :=
  if s.payload.length = n then .next k else .refused .payloadLength

/-- Reset of the registers (10_state.md R19, 70_reset_and_hazards.md R95). It is also what INIT writes
(46_xof_facade.md R79). The model's own counter runs on. -/
def clearEngine (e : Engine) : Engine :=
  { e with lanes := Vector.replicate 25 0, pos := 0, phase := .absorbing }

end Sys2Proof.Machine
end

