-- ==== Sys2Proof/Machine/Codec.lean ====
section
/-! DEFINITION. lane_codec: little-endian conversion between 8 bytes and one lane (41_lane_codec.md). -/
namespace Sys2Proof.Machine

/-- `bytesToLane(b[0..7])`: `v[8j+7:8j] = b[j]` (41_lane_codec.md R44). -/
def bytesToLane (b : Vector Byte 8) : Lane :=
  (List.range 8).foldl (fun v j => v ||| ((nth 0 b j).setWidth 64 <<< (8 * j))) 0

/-- `laneToBytes(v)`: `b[j] = v[8j+7:8j]` (41_lane_codec.md R45). -/
def laneToBytes (v : Lane) : Vector Byte 8 := Vector.ofFn fun j => laneByte v j.val

/-- The eight bytes of a payload from its `k`-th on, as the codec takes them. Every use but the last bus word of
`packWords` has them in the payload; a byte past its end is 0 (DESIGN CHOICE, log entries 12 and 15). -/
def eightBytes (p : List Byte) (k : Nat) : Vector Byte 8 := Vector.ofFn fun j => p.getD (k + j.val) 0

/-- The port `bytes_in[63:0]` read as 8 bytes: bits [8j+7:8j] carry b[j] (41_lane_codec.md R47). -/
def codecPortBytes (w : BitVec 64) : Vector Byte 8 := Vector.ofFn fun j => w.extractLsb' (8 * j.val) 8

/-- 8 bytes driven onto the port `bytes_out[63:0]`: bits [8j+7:8j] carry b[j] (41_lane_codec.md R47). -/
def codecPortWires (b : Vector Byte 8) : BitVec 64 := BitVec.ofFnLE fun i =>
  (nth 0 b (i.val / 8)).getLsbD (i.val % 8)

/-- The output port `lane_out` of the block (41_lane_codec.md R47). -/
def codecLaneOut (bytesIn : BitVec 64) : Lane := bytesToLane (codecPortBytes bytesIn)

/-- The output port `bytes_out` of the block (41_lane_codec.md R47). -/
def codecBytesOut (laneIn : Lane) : BitVec 64 := codecPortWires (laneToBytes laneIn)

end Sys2Proof.Machine
end

