-- ==== Sys2Proof/Machine/Keccak.lean ====
section
/-! DEFINITION. keccak_permutation_1600: the step mappings, the round and the permutation
(42_keccak_permutation.md). Each step mapping builds a whole new array from the complete old one (R49), so no
in-place hazard (R61) can arise. -/
namespace Sys2Proof.Machine

/-- `rotl64(v, n)` for n in 0..63 (42_keccak_permutation.md R48). A shift by 64 gives 0 (00_scope.md R6), so the one
formula also gives `v` at n = 0. -/
def rotl64 (v : Lane) (n : Nat) : Lane := (v <<< n) ||| (v >>> (64 - n))

/-- `A[x, y] = S.lane[x + 5y]`, coordinates modulo 5 (10_state.md R9, 42_keccak_permutation.md R49). -/
def laneXY (A : Lanes) (x y : Nat) : Lane := lane A (x % 5 + 5 * (y % 5))

/-- The array with `A'[x, y] = f x y`, where lane i has column x = i mod 5 and row y = i div 5 (10_state.md R9). -/
def tabulateXY (f : Nat → Nat → Lane) : Lanes := tabulate fun i => f (i.val % 5) (i.val / 5)

/-- The column parities C[0..4] of theta (42_keccak_permutation.md R50). -/
def columnParity (A : Lanes) : Vector Lane 5 := tabulate fun x =>
  laneXY A x 0 ^^^ laneXY A x 1 ^^^ laneXY A x 2 ^^^ laneXY A x 3 ^^^ laneXY A x 4

/-- The mixing values D[0..4] of theta: `D[x] = C[(x+4) mod 5] ^ rotl64(C[(x+1) mod 5], 1)`
(42_keccak_permutation.md R50; the two-neighbour form, 90_conflicts.md C1). -/
def thetaMix (C : Vector Lane 5) : Vector Lane 5 := tabulate fun x =>
  lane C ((x.val + 4) % 5) ^^^ rotl64 (lane C ((x.val + 1) % 5)) 1

/-- theta (42_keccak_permutation.md R50). -/
def theta (A : Lanes) : Lanes := tabulateXY fun x y => laneXY A x y ^^^ lane (thetaMix (columnParity A)) x

/-- A 25-entry table from its five rows y = 0..4, each in the order x = 0..4, so that entry i = x + 5y is entry x of
row y (10_state.md R9). -/
def tableOfRows {α : Type} (y₀ y₁ y₂ y₃ y₄ : Vector α 5) : Vector α 25 := y₀ ++ y₁ ++ y₂ ++ y₃ ++ y₄

/-- The rotation offsets RHO[0..24], by rows y as the rule lists them (42_keccak_permutation.md R51). -/
def rhoOffsets : Vector Nat 25 := tableOfRows
  #v[0, 1, 62, 28, 27]
  #v[36, 44, 6, 55, 20]
  #v[3, 10, 43, 25, 39]
  #v[41, 45, 15, 21, 8]
  #v[18, 2, 61, 56, 14]

/-- rho (42_keccak_permutation.md R52). -/
def rho (A : Lanes) : Lanes := tabulate fun i => rotl64 (lane A i) (nth 0 rhoOffsets i)

/-- pi: `A'[x, y] = A[(x + 3y) mod 5, x]` (42_keccak_permutation.md R53). -/
def pi (A : Lanes) : Lanes := tabulateXY fun x y => laneXY A (x + 3 * y) x

/-- The source-lane table PI_SRC, by which `A'[i] = A[PI_SRC[i]]` (42_keccak_permutation.md R53). -/
def piSource : Vector Nat 25 := tableOfRows
  #v[0, 6, 12, 18, 24]
  #v[3, 9, 10, 16, 22]
  #v[1, 7, 13, 19, 20]
  #v[4, 5, 11, 17, 23]
  #v[2, 8, 14, 15, 21]

/-- chi: `A'[x, y] = A[x, y] ^ ((~A[x+1, y]) & A[x+2, y])` (42_keccak_permutation.md R54). -/
def chi (A : Lanes) : Lanes := tabulateXY fun x y =>
  laneXY A x y ^^^ (~~~(laneXY A (x + 1) y) &&& laneXY A (x + 2) y)

/-- The twelve lines of the round-constant table as the rule prints it: line k has RC[k] on the left and RC[k + 12]
on the right (42_keccak_permutation.md R55). -/
def roundConstantLines : Vector (Lane × Lane) 12 := #v[
  (0x0000000000000001, 0x000000008000808B),
  (0x0000000000008082, 0x800000000000008B),
  (0x800000000000808A, 0x8000000000008089),
  (0x8000000080008000, 0x8000000000008003),
  (0x000000000000808B, 0x8000000000008002),
  (0x0000000080000001, 0x8000000000000080),
  (0x8000000080008081, 0x000000000000800A),
  (0x8000000000008009, 0x800000008000000A),
  (0x000000000000008A, 0x8000000080008081),
  (0x0000000000000088, 0x8000000000008080),
  (0x0000000080008009, 0x0000000080000001),
  (0x000000008000000A, 0x8000000080008008)]

/-- The round constants RC[0..23] in the order they are used: down the left column of the table, then down the right
(42_keccak_permutation.md R55). -/
def roundConstants : Vector Lane 24 := roundConstantLines.map Prod.fst ++ roundConstantLines.map Prod.snd

/-- iota, for ir in 0..23: the round constant into lane 0 only (42_keccak_permutation.md R56). -/
def iota (A : Lanes) (ir : Nat) : Lanes := setLane A 0 (lane A 0 ^^^ lane roundConstants ir)

/-- `Round(A, ir)` (42_keccak_permutation.md R57). -/
def keccakRound (A : Lanes) (ir : Nat) : Lanes := iota (chi (pi (rho (theta A)))) ir

/-- `KeccakF(S)`: 24 rounds, ir = 0 first (42_keccak_permutation.md R58). -/
def keccakF (A : Lanes) : Lanes := (List.range Config.rounds).foldl keccakRound A

/-- What it means for an implementation of the permutation to conform: it gives the function of R58 for every
input (42_keccak_permutation.md R59). -/
def PermutationConforms (f : Lanes → Lanes) : Prop := ∀ A, f A = keccakF A

/-- The port vector of a state: bit 64·i + j is bit j of lane i (42_keccak_permutation.md R60). -/
def lanesToPort (A : Lanes) : BitVec 1600 := BitVec.ofFnLE fun b => (lane A (b.val / 64)).getLsbD (b.val % 64)

/-- The state a port vector carries: `state_in[64i+63 : 64i] = S.lane[i]` (42_keccak_permutation.md R60). -/
def portToLanes (w : BitVec 1600) : Lanes := tabulate fun i => w.extractLsb' (64 * i.val) 64

/-- The block keccak_permutation_1600 at its ports: `state_out = KeccakF(state_in)` (42_keccak_permutation.md R60). -/
def keccakPort (stateIn : BitVec 1600) : BitVec 1600 := lanesToPort (keccakF (portToLanes stateIn))

/-- The generating rule of the rotation offsets: start at (1, 0); at step t the offset of (x, y) is
((t+1)(t+2)/2) mod 64, then (x, y) <- (y, (2x + 3y) mod 5) (42_keccak_permutation.md R51, from general knowledge). -/
def rhoWalk : (steps t x y : Nat) → List (Nat × Nat)
  | 0, _, _, _ => []
  | n + 1, t, x, y => (x + 5 * y, ((t + 1) * (t + 2) / 2) % 64) :: rhoWalk n (t + 1) y ((2 * x + 3 * y) % 5)

/-- One step of the LFSR of x^8 + x^6 + x^5 + x^4 + 1 that audits the round constants
(42_keccak_permutation.md R55, from general knowledge). Bit 0 is the output bit. -/
def rcLfsr (r : BitVec 8) : BitVec 8 := if r.getLsbD 7 then (r <<< 1) ^^^ 0x71 else r <<< 1

/-- `rc(t)`, the output bit of the LFSR after `t` steps from 1 (42_keccak_permutation.md R55). -/
def rcBit (t : Nat) : Bool := (Nat.repeat rcLfsr t 1).getLsbD 0

end Sys2Proof.Machine
end

