-- ==== Sys2Proof/Machine/Sponge.lean ====
section
/-! DEFINITION. The micro-steps of the sponge: AbsorbByte (43_sponge_absorb.md R62), Finalize
(44_sponge_finalize.md R69) and SqueezeByte (45_sponge_squeeze.md R73), and their folds over a payload. -/
namespace Sys2Proof.Machine

/-- `S <- KeccakF(S)`: all 25 lanes replaced, capacity lanes included (42_keccak_permutation.md R58). The one
place where the engine runs the permutation. -/
def permute (e : Engine) : Engine := { e with lanes := keccakF e.lanes, permCount := e.permCount + 1 }

/-- `POS <- POS + 1; if POS == 168: S <- KeccakF(S), POS <- 0` (43_sponge_absorb.md R62). -/
def advanceAbsorb (e : Engine) (n : Nat) : Engine :=
  if h : e.pos.val + n < Config.rate then { e with pos := ⟨e.pos.val + n, h⟩ } else { permute e with pos := 0 }

/-- `AbsorbByte(b)` (43_sponge_absorb.md R62). -/
def absorbByte (e : Engine) (b : Byte) : Engine :=
  advanceAbsorb { e with lanes := xorByte e.lanes e.pos.val b } 1

/-- ABSORB with status OK: the left fold of AbsorbByte over the payload (43_sponge_absorb.md R63, R66). -/
def absorbBytes (e : Engine) (p : List Byte) : Engine := p.foldl absorbByte e

/-- `Finalize()` (44_sponge_finalize.md R69). It runs no KeccakF. -/
def finalize (e : Engine) : Engine :=
  { e with
    lanes := let S := xorByte e.lanes e.pos.val Config.ds
             setLane S 20 (lane S 20 ^^^ Config.finalBit)
    pos := 0
    phase := .squeezing }

/-- What SqueezeByte does first: a KeccakF when POS = 0, since then no unread output remains
(45_sponge_squeeze.md R73, 10_state.md R12). -/
def refill (e : Engine) : Engine := if e.pos = 0 then permute e else e

/-- `SqueezeByte()`: the byte, and the engine after it. The cursor addition is modulo 168
(45_sponge_squeeze.md R73). -/
def squeezeByte (e : Engine) : Byte × Engine :=
  (readByte (refill e).lanes (refill e).pos.val, { refill e with pos := (refill e).pos + 1 })

/-- `n` SqueezeBytes in stream order (45_sponge_squeeze.md R74). -/
def squeezeBytes : Nat → Engine → List Byte × Engine
  | 0, e => ([], e)
  | n + 1, e =>
    ((squeezeByte e).1 :: (squeezeBytes n (squeezeByte e).2).1, (squeezeBytes n (squeezeByte e).2).2)

/-- `if PHASE == Absorbing: Finalize()` (45_sponge_squeeze.md R74, 44_sponge_finalize.md R70). -/
def finalizeIfAbsorbing (e : Engine) : Engine :=
  match e.phase with
  | .absorbing => finalize e
  | .squeezing => e

/-- SQUEEZE LEN on the engine: nothing at all for LEN = 0 (45_sponge_squeeze.md R75), else Finalize if still
Absorbing and then LEN output bytes (R74). -/
def squeezeOutput (len : Nat) (e : Engine) : List Byte × Engine :=
  if len = 0 then ([], e) else squeezeBytes len (finalizeIfAbsorbing e)

end Sys2Proof.Machine
end

