-- ==== Sys2Proof/Machine/Xof.lean ====
section
/-! DEFINITION. The meaning of each command, and of an illegal command word (46_xof_facade.md R79, R80;
43_sponge_absorb.md R63, R64; 45_sponge_squeeze.md R74; 60_exceptions.md R84). The command being carried out
has its input payload in `State.payload`. -/
namespace Sys2Proof.Machine

/-- INIT: all lanes 0, POS = 0, PHASE = Absorbing, status OK, in either phase (46_xof_facade.md R79). -/
def execInit (s : State) : Host.Outcome State Fault Refusal :=
  withPayload 0 s (respond .ok [] (clearEngine s.engine) s)

/-- ABSORB LEN: ERR_PHASE while Squeezing, whatever LEN is (43_sponge_absorb.md R64); else AbsorbByte for each
payload byte in order (R63). -/
def execAbsorb (len : Nat) (s : State) : Host.Outcome State Fault Refusal :=
  withPayload len s <|
    match s.engine.phase with
    | .squeezing => raiseError .errPhase s
    | .absorbing => respond .ok [] (absorbBytes s.engine s.payload) s

/-- SQUEEZE LEN: legal in both phases (45_sponge_squeeze.md R74). -/
def execSqueeze (len : Nat) (s : State) : Host.Outcome State Fault Refusal :=
  withPayload 0 s (respond .ok (squeezeOutput len s.engine).1 (squeezeOutput len s.engine).2 s)

/-- An illegal command word: ERR_ILLEGAL and no other effect; the payload it carries is discarded
(30_encoding.md R36, R37; 60_exceptions.md R84). -/
def execIllegal (cw : Word) (s : State) : Host.Outcome State Fault Refusal :=
  withPayload (inLength cw) s (raiseError .errIllegal s)

end Sys2Proof.Machine
end

