-- ==== Sys2Proof/Machine/Dispatch.lean ====
section
/-! DEFINITION. The dispatch from a decoded command to its meaning (46_xof_facade.md R80). -/
namespace Sys2Proof.Machine

def exec (i : Instr) (s : State) : Host.Outcome State Fault Refusal :=
  match i with
  | .init => Sys2Proof.Machine.execInit s
  | .absorb len => Sys2Proof.Machine.execAbsorb len s
  | .squeeze len => Sys2Proof.Machine.execSqueeze len s

end Sys2Proof.Machine
end

