-- ==== Sys2Proof/Machine/Transaction.lean ====
section
/-! DEFINITION. One transaction (30_encoding.md R32), the dispatch `Step(CW, p)` (46_xof_facade.md R80), and the
host's other events: reset, reset during a command, a command issued early (70_reset_and_hazards.md R95, R97). -/
namespace Sys2Proof.Machine

/-- `Step(CW, p)`: take the payload, decode the word, run its meaning or report ERR_ILLEGAL. The word is decoded
first, so ERR_ILLEGAL wins over ERR_PHASE (46_xof_facade.md R80, 60_exceptions.md R85). -/
def runCommand (c : Command) (s : State) : Host.Outcome State Fault Refusal :=
  match decode c.word with
  | .ok i => exec i { s with payload := c.payload }
  | .error _ => execIllegal c.word { s with payload := c.payload }

/-- Reset between commands: the reset state of the registers; the host's side is untouched
(70_reset_and_hazards.md R95; DEDUCED, log entry 13). -/
def runReset (s : State) : State := { s with engine := clearEngine s.engine }

/-- Reset during command `c`: the command is abandoned without a response word and the registers are at their
reset values, whatever the command had done. What the host may have received of its output is a free value, no
longer than the output the command asked for (70_reset_and_hazards.md R95, 93_implementation_defined.md U12;
log entries 3 and 5). DESIGN CHOICE, log entry 3: which free value it is depends on `freeDraws` alone, so two commands
abandoned on two instances at equal counts get equal bytes, up to their lengths, which U12 does not say; unsafe. -/
def runResetDuring (c : Command) (s : State) : State :=
  { runReset s with
    cmdIndex := s.cmdIndex + 1
    freeDraws := s.freeDraws + 1
    replies := s.replies ++
      [.abandoned ((Config.abandonedBytes s.freeDraws).take (outLength c.word .ok))] }

/-- One host event, already taken off `pending`. -/
def runEvent (ev : HostEvent) (s : State) : Host.Outcome State Fault Refusal :=
  match ev with
  | .command c => runCommand c s
  | .earlyCommand _ => .refused .earlyCommand
  | .reset => .next (runReset s)
  | .resetDuring c => .next (runResetDuring c s)

/-- The next event of the host. With none, the engine is idle and keeps everything as it is
(60_exceptions.md R93). -/
def runNext (s : State) : Host.Outcome State Fault Refusal :=
  match s.pending with
  | [] => .next s
  | ev :: rest => runEvent ev { s with pending := rest }

/-- The command the host issues when the word `w` of `nbits` bits is its next one: the bits above `nbits` are 0,
and the payload is the zero bytes the word asks for (log entry 2). -/
def tableCommand (nbits w : Nat) : Command :=
  let cw : Word := BitVec.ofNat 32 (w % 2 ^ nbits)
  { word := cw, payload := List.replicate (inLength cw) 0 }

/-- The commands a list of words and payloads issues, in order. -/
def commandEvents (cs : List Command) : List HostEvent := cs.map .command

/-- The output payload of one reply. An abandoned command is part of no output stream
(70_reset_and_hazards.md R95). -/
def replyOutput : Reply → List Byte
  | .response _ out => out
  | .abandoned _ => []

/-- The status a reply carries, if it carries one (30_encoding.md R38). -/
def replyStatus : Reply → Option Status
  | .response rsp _ => (readResponse rsp).map (·.1)
  | .abandoned _ => none

/-- All output the host has received in answered commands, in stream order. -/
def outputStream (rs : List Reply) : List Byte := rs.flatMap replyOutput

/-- The faults of the run: every reply with a non-OK status, kept to the end (60_exceptions.md R87). -/
def recordedFaults (rs : List Reply) : List Reply :=
  rs.filter fun r => replyStatus r = some .errIllegal || replyStatus r = some .errPhase

end Sys2Proof.Machine
end

