-- ==== Sys2Proof/Machine/Step.lean ====
section
/-! DEFINITION. One step of the machine: the host's next event (46_xof_facade.md R80), and the command a test
places as the host's next one. -/
namespace Sys2Proof.Machine

/-- One command, or one other host event, is one atomic step (30_encoding.md R32, 20_memory.md R26). -/
def step (s : State) : Host.Outcome State Fault Refusal := runNext s

/-- `k` steps in a row, stopping at the first refusal: the host's next `k` events (20_memory.md R29). -/
def runSteps : Nat → State → Host.Outcome State Fault Refusal
  | 0, s => .next s
  | k + 1, s =>
    match step s with
    | .next t => runSteps k t
    | .fault r => .fault r
    | .refused r => .refused r

/-- `s` with the command of `tableCommand` as the host's next event, so that the very next step runs it. -/
def State.withFetchWord (s : State) (nbits w : Nat) : State :=
  { s with pending := .command (tableCommand nbits w) :: s.pending }

end Sys2Proof.Machine
end

