-- ==== Sys2Proof/Machine/Assembler.lean ====
section
/-! DEFINITION. The textual command stream and its pseudo-instructions (30_encoding.md R41, R42). It is the host's
side: the engine sees only the commands it expands to. Where R41 and R42 leave a spelling open, log entry 7 says
what is read. -/
namespace Sys2Proof.Machine

/-- One line of a command stream (30_encoding.md R41, R42). -/
inductive AsmLine where
  | init
  /-- `ABSORB` in any of its spellings, with its payload. -/
  | absorb (payload : List Byte)
  | squeeze (len : Nat)
  /-- `.word`: a raw command word. -/
  | word (cw : Word) (payload : List Byte)
  /-- The pseudo-instruction `SHAKE128 <msg>, <n>`. -/
  | shake128 (msg : List Byte) (n : Nat)
  deriving DecidableEq, Repr

/-- The consecutive pieces of a byte sequence, each of the largest length one command carries but the last
(30_encoding.md R42). None for the empty sequence. -/
def bytePieces : (fuel : Nat) → List Byte → List (List Byte)
  | 0, _ => []
  | fuel + 1, p => if p.isEmpty then [] else p.take Config.maxLen :: bytePieces fuel (p.drop Config.maxLen)

/-- The consecutive pieces of a length (30_encoding.md R42). None for 0. -/
def lengthPieces : (fuel : Nat) → Nat → List Nat
  | 0, _ => []
  | fuel + 1, n =>
    if n = 0 then [] else min n Config.maxLen :: lengthPieces fuel (n - min n Config.maxLen)

/-- The command `ABSORB |p|` with payload p (30_encoding.md R41). -/
def absorbCommand (p : List Byte) : Command := { word := encode (.absorb p.length), payload := p }

/-- The command `SQUEEZE n` (30_encoding.md R41). -/
def squeezeCommand (n : Nat) : Command := { word := encode (.squeeze n), payload := [] }

/-- The command `INIT` (30_encoding.md R41). -/
def initCommand : Command := { word := encode .init, payload := [] }

/-- The commands one line expands to (30_encoding.md R41, R42). A length one command can carry stays one command. -/
def expandLine : AsmLine → List Command
  | .init => [initCommand]
  | .absorb p =>
    if p.length ≤ Config.maxLen then [absorbCommand p] else (bytePieces p.length p).map absorbCommand
  | .squeeze n =>
    if n ≤ Config.maxLen then [squeezeCommand n] else (lengthPieces n n).map squeezeCommand
  | .word cw p => [{ word := cw, payload := p }]
  | .shake128 msg n =>
    initCommand :: ((bytePieces msg.length msg).map absorbCommand ++ (lengthPieces n n).map squeezeCommand)

/-- A decimal digit. -/
def decDigit (c : Char) : Option Nat :=
  if 48 ≤ c.toNat ∧ c.toNat ≤ 57 then some (c.toNat - 48) else none

/-- A hexadecimal digit, of either case. -/
def hexDigit (c : Char) : Option Nat :=
  if 48 ≤ c.toNat ∧ c.toNat ≤ 57 then some (c.toNat - 48)
  else if 65 ≤ c.toNat ∧ c.toNat ≤ 70 then some (c.toNat - 55)
  else if 97 ≤ c.toNat ∧ c.toNat ≤ 102 then some (c.toNat - 87)
  else none

/-- The text from its first character that is not a blank. -/
def skipBlanks (cs : List Char) : List Char := cs.dropWhile fun c => c == ' ' || c == '\t'

/-- Only blanks, or a comment: `;` starts one (30_encoding.md R41). -/
def lineEnds (cs : List Char) : Bool :=
  match skipBlanks cs with
  | [] => true
  | c :: _ => c == ';'

/-- `<len>`: decimal (30_encoding.md R41), the number read so far in `acc`. -/
def readDecimal : List Char → Option Nat → Option (Nat × List Char)
  | [], acc => acc.map (·, [])
  | c :: cs, acc =>
    match decDigit c with
    | some d => readDecimal cs (some (acc.getD 0 * 10 + d))
    | none => acc.map (·, c :: cs)

/-- `n` bytes of `<hex>`, first byte leftmost: exactly 2·n hex digits (30_encoding.md R41). -/
def readHexBytes : (n : Nat) → List Char → Option (List Byte × List Char)
  | 0, cs => some ([], cs)
  | n + 1, c :: d :: cs =>
    match hexDigit c, hexDigit d, readHexBytes n cs with
    | some h, some l, some (bs, rest) => some (BitVec.ofNat 8 (16 * h + l) :: bs, rest)
    | _, _, _ => none
  | _ + 1, _ => none

/-- The ASCII codes up to the closing double quote (30_encoding.md R41). DESIGN CHOICE, log entry 7: between the quotes
every character is payload, `;` included, and a double quote ends it, with no escape for one. -/
def readQuoted : List Char → Option (List Byte × List Char)
  | [] => none
  | c :: cs =>
    if c.toNat = 34 then some ([], cs)
    else if c.toNat < 128 then (readQuoted cs).map fun r => (BitVec.ofNat 8 c.toNat :: r.1, r.2)
    else none

/-- The text after the keyword `kw` at its start. -/
def afterKeyword : (kw : List Char) → List Char → Option (List Char)
  | [], cs => some cs
  | k :: ks, c :: cs => if k = c then afterKeyword ks cs else none
  | _ :: _, [] => none

/-- `<len>, <hex>` (30_encoding.md R41). -/
def readLenHex (cs : List Char) : Option (List Byte × List Char) :=
  match readDecimal (skipBlanks cs) none with
  | some (n, r) =>
    match skipBlanks r with
    | ',' :: r => readHexBytes n (skipBlanks r)
    | _ => none
  | none => none

/-- `<len> x <byte>` (30_encoding.md R41). -/
def readFill (cs : List Char) : Option (List Byte × List Char) :=
  match readDecimal (skipBlanks cs) none with
  | some (n, r) =>
    match skipBlanks r with
    | 'x' :: r => (readHexBytes 1 (skipBlanks r)).map fun q => (List.replicate n (q.1.headD 0), q.2)
    | _ => none
  | none => none

/-- `"<ascii>"` (30_encoding.md R41). -/
def readAscii (cs : List Char) : Option (List Byte × List Char) :=
  match skipBlanks cs with
  | c :: r => if c.toNat = 34 then readQuoted r else none
  | [] => none

/-- A bare `<len>` of 0, with neither comma nor `<hex>`: `ABSORB 0`. R41 lets `<hex>` be empty when len = 0 and does not
say that the comma may go with it; P5 of 95_test_vectors.md writes it so (DEDUCED, log entry 7). -/
def readBareZero (cs : List Char) : Option (List Byte × List Char) :=
  match readDecimal (skipBlanks cs) none with
  | some (0, r) => some ([], r)
  | _ => none

/-- A payload in any of its three spellings (30_encoding.md R41). -/
def readPayload (cs : List Char) : Option (List Byte × List Char) :=
  (readAscii cs).orElse fun _ => (readLenHex cs).orElse fun _ => readFill cs

/-- `<hex32>`: 8 hex digits, as R43 writes them after `0x` (30_encoding.md R41). -/
def readWord (cs : List Char) : Option (Word × List Char) :=
  let digits := (afterKeyword ['0', 'x'] (skipBlanks cs)).getD (skipBlanks cs)
  (readHexBytes 4 digits).map fun q =>
    (BitVec.ofNat 32 (q.1.foldl (fun n b => n * 256 + b.toNat) 0), q.2)

/-- A result whose rest of the line is empty or a comment. -/
def atLineEnd {α : Type} (r : Option (α × List Char)) : Option α :=
  match r with
  | some (a, rest) => if lineEnds rest then some a else none
  | none => none

/-- The payload of a `.word` line: none unless OP = 0x2 (30_encoding.md R41). -/
def readWordLine (cs : List Char) : Option AsmLine :=
  match readWord cs with
  | some (cw, r) =>
    if lineEnds r then some (.word cw [])
    else if cwOp cw = 2 then
      match skipBlanks r with
      | ',' :: r => (atLineEnd (readPayload r)).map fun p => .word cw p
      | _ => none
    else none
  | none => none

/-- `SHAKE128 <msg>, <n>` (30_encoding.md R42). -/
def readShakeLine (cs : List Char) : Option AsmLine :=
  match readPayload cs with
  | some (msg, r) =>
    match skipBlanks r with
    | ',' :: r => (atLineEnd (readDecimal (skipBlanks r) none)).map fun n => .shake128 msg n
    | _ => none
  | none => none

/-- One line of a command stream; a line with nothing but blanks or a comment is no command
(30_encoding.md R41, R42). -/
def parseLine (cs : List Char) : Option (List AsmLine) :=
  let cs := skipBlanks cs
  if lineEnds cs then some []
  else match afterKeyword ['I', 'N', 'I', 'T'] cs with
  | some r => if lineEnds r then some [.init] else none
  | none => match afterKeyword ['A', 'B', 'S', 'O', 'R', 'B'] cs with
  | some r => ((atLineEnd (readPayload r)).orElse fun _ => atLineEnd (readBareZero r)).map fun p => [.absorb p]
  | none => match afterKeyword ['S', 'Q', 'U', 'E', 'E', 'Z', 'E'] cs with
  | some r => (atLineEnd (readDecimal (skipBlanks r) none)).map fun n => [.squeeze n]
  | none => match afterKeyword ['.', 'w', 'o', 'r', 'd'] cs with
  | some r => (readWordLine r).map fun l => [l]
  | none => match afterKeyword ['S', 'H', 'A', 'K', 'E', '1', '2', '8'] cs with
  | some r => (readShakeLine r).map fun l => [l]
  | none => none

/-- The commands of a whole stream, one line each; none if a line is not of the syntax (30_encoding.md R41). -/
def assemble (lines : List (List Char)) : Option (List Command) :=
  (lines.mapM parseLine).map fun ls => ls.flatten.flatMap expandLine

end Sys2Proof.Machine
end

