-- ==== Sys2Proof/Machine/Platform.lean ====
section
/-! DEFINITION. A platform of N_INST engine instances (00_scope.md R5, 60_exceptions.md R91): each has its own
registers and its own command stream, and they share no mutable state (10_state.md R20). -/
namespace Sys2Proof.Machine

/-- `n` independent instances. N_INST is OPEN, at least 1 (00_scope.md R5). -/
abbrev Platform (n : Nat) := Vector State n

/-- Every instance starts in the reset state (60_exceptions.md R91). -/
def platformReset (n : Nat) : Platform n := Vector.replicate n State.reset

/-- One command, or other event, of instance `k` (20_memory.md R29). A host that breaks a duty on one instance gets
no step there (log entry 11). -/
def platformStep {n : Nat} (k : Fin n) (p : Platform n) : Host.Outcome (Platform n) Fault Refusal :=
  match step p[k] with
  | .next s => .next (p.set k.val s k.isLt)
  | .fault r => .fault r
  | .refused r => .refused r

/-- Reset of every instance it reaches; the others are untouched (70_reset_and_hazards.md R95; log
entry 13). -/
def platformHardReset {n : Nat} (reached : Fin n → Bool) (p : Platform n) : Platform n :=
  Vector.ofFn fun k => if reached k then runReset p[k] else p[k]

end Sys2Proof.Machine
end

