-- ==== Sys2Proof/Machine/LaneAlgorithms.lean ====
section
/-! DEFINITION. The source's lane-at-a-time algorithms as the spec restates them: implementations that must equal
the byte-wise rules (43_sponge_absorb.md R67, 45_sponge_squeeze.md R77; 90_conflicts.md C5). The machine's step does
not use them. Each returns the engine with the payload bytes, or the byte count, still to be handled. -/
namespace Sys2Proof.Machine

/-- `S.lane[i] <- S.lane[i] ^ bytesToLane(p[8i .. 8i+7])` for i in 0..20: a whole block at POS = 0
(43_sponge_absorb.md R67, step 2). -/
def xorBlock (S : Lanes) (p : List Byte) : Lanes := tabulate fun i =>
  if i.val < Config.rateLanes then lane S i ^^^ bytesToLane (eightBytes p (8 * i.val)) else lane S i

/-- Step 1: finish a partly filled lane byte by byte (43_sponge_absorb.md R67). -/
def absorbFinishLane : List Byte → Engine → List Byte × Engine
  | [], e => ([], e)
  | b :: p, e => if e.pos.val % 8 = 0 then (b :: p, e) else absorbFinishLane p (absorbByte e b)

/-- Step 2: whole blocks at POS = 0 (43_sponge_absorb.md R67). `fuel` bounds the loop: each turn takes 168 bytes. -/
def absorbWholeBlocks : (fuel : Nat) → List Byte → Engine → List Byte × Engine
  | 0, p, e => (p, e)
  | fuel + 1, p, e =>
    if e.pos = 0 ∧ 168 ≤ p.length then
      absorbWholeBlocks fuel (p.drop 168) (permute { e with lanes := xorBlock e.lanes p })
    else (p, e)

/-- Step 3: whole lanes; the block's KeccakF when POS reaches 168 (43_sponge_absorb.md R67). -/
def absorbWholeLanes : (fuel : Nat) → List Byte → Engine → List Byte × Engine
  | 0, p, e => (p, e)
  | fuel + 1, p, e =>
    if 8 ≤ p.length then
      let i := e.pos.val / 8
      let S := setLane e.lanes i (lane e.lanes i ^^^ bytesToLane (eightBytes p 0))
      absorbWholeLanes fuel (p.drop 8) (advanceAbsorb { e with lanes := S } 8)
    else (p, e)

/-- `ABSORB_by_lanes` while Absorbing: steps 1 to 3, then the trailing bytes (43_sponge_absorb.md R67). -/
def absorbByLanes (e : Engine) (p : List Byte) : Engine :=
  let r₁ := absorbFinishLane p e
  let r₂ := absorbWholeBlocks r₁.1.length r₁.1 r₁.2
  let r₃ := absorbWholeLanes r₂.1.length r₂.1 r₂.2
  absorbBytes r₃.2 r₃.1

/-- Step 2: the rest of a partly read lane; POS ≠ 0 here, so no permutation (45_sponge_squeeze.md R77). -/
def squeezeFinishLane : (count : Nat) → Engine → List Byte × Nat × Engine
  | 0, e => ([], 0, e)
  | n + 1, e =>
    if e.pos.val % 8 = 0 then ([], n + 1, e)
    else
      let r := squeezeFinishLane n (squeezeByte e).2
      ((squeezeByte e).1 :: r.1, r.2)

/-- The bytes of the rate lanes 0..20 in order, each by `laneToBytes` (45_sponge_squeeze.md R77, step 3). -/
def blockBytes (S : Lanes) : List Byte :=
  (List.range Config.rateLanes).flatMap fun i => (laneToBytes (lane S i)).toList

/-- Step 3: whole blocks while POS = 0 (45_sponge_squeeze.md R77). `fuel` bounds the loop. -/
def squeezeWholeBlocks : (fuel : Nat) → (count : Nat) → Engine → List Byte × Nat × Engine
  | 0, n, e => ([], n, e)
  | fuel + 1, n, e =>
    if e.pos = 0 ∧ 168 ≤ n then
      let r := squeezeWholeBlocks fuel (n - 168) (permute e)
      (blockBytes (permute e).lanes ++ r.1, r.2)
    else ([], n, e)

/-- `SQUEEZE_by_lanes`, for LEN ≥ 1 (45_sponge_squeeze.md R77). -/
def squeezeByLanes (len : Nat) (e : Engine) : List Byte × Engine :=
  let r₁ := squeezeFinishLane len (finalizeIfAbsorbing e)
  let r₂ := squeezeWholeBlocks r₁.2.1 r₁.2.1 r₁.2.2
  let r₃ := squeezeBytes r₂.2.1 r₂.2.2
  (r₁.1 ++ r₂.1 ++ r₃.1, r₃.2)

end Sys2Proof.Machine
end

