-- ==== Sys2Proof/Machine/Reference.lean ====
section
/-! DEFINITION. The one-shot reading of the whole function, against which the streaming engine is judged: pad the
message, absorb it block by block, read the output blocks (44_sponge_finalize.md R72, 45_sponge_squeeze.md R78).
The machine's step does not use it. -/
namespace Sys2Proof.Machine

/-- The padding of a message of length `n`: 0x1F, zeros, and 0x80 in the last byte of the block, the two falling
together as 0x9F when one byte is left (44_sponge_finalize.md R71, R72). -/
def paddingBytes (n : Nat) : List Byte :=
  if n % 168 = 167 then [0x9F] else 0x1F :: (List.replicate (166 - n % 168) 0 ++ [0x80])

/-- Absorb a sequence of whole blocks, each followed by KeccakF; `blocks` counts them. -/
def absorbBlocks : (blocks : Nat) → List Byte → Lanes → Lanes
  | 0, _, S => S
  | n + 1, p, S => absorbBlocks n (p.drop 168) (keccakF (xorBlock S p))

/-- `KeccakF^m` (45_sponge_squeeze.md R78). -/
def keccakFIter (m : Nat) (S : Lanes) : Lanes := Nat.repeat keccakF m S

/-- Output byte `n` of a session whose state right after Finalize is `P`:
`Z[n] = byte (n mod 168) of KeccakF^(⌊n/168⌋ + 1)(P)` (45_sponge_squeeze.md R78). -/
def streamByte (P : Lanes) (n : Nat) : Byte := readByte (keccakFIter (n / 168 + 1) P) (n % 168)

/-- SHAKE128 of a message in one shot, `n` output bytes: the padded message absorbed block by block from the zero
state, then the rate parts of the state, of its KeccakF, and so on (44_sponge_finalize.md R72,
45_sponge_squeeze.md R78). -/
def shake128 (msg : List Byte) (n : Nat) : List Byte :=
  let padded := msg ++ paddingBytes msg.length
  let S := absorbBlocks (padded.length / 168) padded (Vector.replicate 25 0)
  (List.range n).map fun k => readByte (keccakFIter (k / 168) S) (k % 168)

end Sys2Proof.Machine
end

