-- ==== Sys2Proof/Machine/Transport.lean ====
section
/-! DEFINITION. The packing of payload bytes into 64-bit bus words that the spec recommends, which agrees with the lane
codec (20_memory.md R31, BUS_PACKING of 00_scope.md R5). The engine itself sees bytes; the machine's step does not use
this file (log entry 12). -/
namespace Sys2Proof.Machine

/-- The bus words `ws` carry the payload `p`: stream byte 8m + j is bits [8j+7:8j] of word m (20_memory.md R31). The rule
gives neither the number of words nor the bits past the payload, so only that there are words enough is asked for:
more words may follow, and the rest of the last one is any value (log entry 12). -/
def Packs (ws : List Lane) (p : List Byte) : Prop :=
  (p.length + 7) / 8 ≤ ws.length ∧
    ∀ m < (p.length + 7) / 8, ∀ j < 8, 8 * m + j < p.length →
      (ws.getD m 0).extractLsb' (8 * j) 8 = p.getD (8 * m + j) 0

/-- The bus words of a payload by the lane codec: word m is bytesToLane of bytes 8m to 8m + 7 (20_memory.md R31).
DESIGN CHOICE, log entry 12: as few words as carry the payload, (n + 7) div 8 of them, and none for the empty payload;
the bits of the last word past the payload are 0. -/
def packWords (p : List Byte) : List Lane :=
  (List.range ((p.length + 7) / 8)).map fun m => bytesToLane (eightBytes p (8 * m))

/-- The `n` payload bytes that bus words carry: their bytes by laneToBytes in word order, of which the first `n` are the
payload (20_memory.md R31). -/
def unpackWords (ws : List Lane) (n : Nat) : List Byte :=
  (ws.flatMap fun w => (laneToBytes w).toList).take n

end Sys2Proof.Machine
end

