-- ==== Sys2Proof/Safety.lean ====
section
/-! DEFINITION. What the claims mean by a state that makes sense, a host that keeps its duties, and a run without
errors (10_state.md R12, R17; 30_encoding.md R37, R38; 60_exceptions.md R84, R87; 70_reset_and_hazards.md R97). -/
namespace Sys2Proof.Machine

/-- A reply this hardware can give: a response word with a defined STATUS, POS below 168 and the reserved bits 0,
and no output byte with an error status (30_encoding.md R37, R38; 93_implementation_defined.md U3 to U5). -/
def replyWellFormed : Reply → Bool
  | .response rsp out =>
    match readResponse rsp with
    | some (.ok, _, _) => true
    | some (_, _, _) => out.isEmpty
    | none => false
  | .abandoned _ => true

/-- A reply to an abandoned command. -/
def isAbandoned : Reply → Bool
  | .abandoned _ => true
  | .response _ _ => false

/-- The invariant of the machine between commands: no payload is left over, every reply is one this hardware can
give, there is exactly one reply per command issued, and one free value was drawn per abandoned command. -/
def State.Inv (s : State) : Prop :=
  s.payload = [] ∧ s.replies.all replyWellFormed = true ∧ s.cmdIndex = s.replies.length ∧
    s.freeDraws = s.replies.countP isAbandoned

/-- An event of a host that keeps duties (a) and (b) of 70_reset_and_hazards.md R97. -/
def HostEvent.dutiful : HostEvent → Bool
  | .command c => c.framed
  | .earlyCommand _ => false
  | .reset => true
  | .resetDuring _ => true

/-- A host all of whose remaining events keep its duties. -/
def State.hostDutiful (s : State) : Prop := s.pending.all HostEvent.dutiful = true

/-- A safe run: no error status was recorded (60_exceptions.md R87). -/
def State.errorFree (s : State) : Prop := recordedFaults s.replies = []

/-- Two engines whose registers S, POS and PHASE are equal (10_state.md R17); the model's own counter is left out. -/
def Engine.sameRegisters (e e' : Engine) : Prop := e.lanes = e'.lanes ∧ e.pos = e'.pos ∧ e.phase = e'.phase

end Sys2Proof.Machine
end

