-- ==== Sys2Proof/Certificates/Slice0/Obligations.lean ====
section
/-! DEFINITION. The statements for the provers. Each says in its docstring which rule of the spec it formalises;
a clause that rests on a choice of the model's own names the log entry. -/

open Sys2Proof Sys2Proof.Machine

/-! ### The command word and the response word -/

/-- 30_encoding.md R43: the encoding summary with its five examples. -/
def Obligations.EncodingSummary : Prop :=
  encode .init = 0x00000001 ∧
  (∀ L, L ≤ Config.maxLen →
    (encode (.absorb L)).toNat = 0x00000002 + L * 0x100 ∧
    (encode (.squeeze L)).toNat = 0x00000003 + L * 0x100) ∧
  encode (.absorb 3) = 0x00000302 ∧ encode (.squeeze 32) = 0x00002003 ∧
  encode (.squeeze 500) = 0x0001F403 ∧ encode (.absorb 1000) = 0x0003E802 ∧
  encode (.absorb 16777215) = 0xFFFFFF02

/-- Words written out from the format LLLLLLLLLLLLLLLLLLLLLLLL0000oooo and the OP map (30_encoding.md R33, R35), one
per command and per illegal clause (R36), decode to what they stand for. -/
def Obligations.WrittenWordsDecode : Prop :=
  decode 0b00000000000000000000000000000001 = .ok .init ∧
  decode 0b00000000000000000000001100000010 = .ok (.absorb 3) ∧
  decode 0b00000000000000000010000000000011 = .ok (.squeeze 32) ∧
  decode 0b11111111111111111111111100000011 = .ok (.squeeze 16777215) ∧
  decode 0b00000000000000000000000100000001 = .error .initWithLength ∧
  decode 0b00000000000000000000001100010010 = .error .reservedBits ∧
  decode 0b00000000000000000000000000000000 = .error .reservedOp ∧
  decode 0b00000000000000000000000000000100 = .error .reservedOp ∧
  decode 0b00000000000000000000000000001111 = .error .reservedOp

/-- Every well-formed command decodes back from its word, LEN at every value the field admits
(30_encoding.md R33, R34, R35, R39). -/
def Obligations.DecodeOfEncode : Prop :=
  ∀ i : Instr, i.wellFormed = true → decode (encode i) = .ok i

/-- Every legal word is the encoding of what it decodes to, which is well formed: each word has one meaning
(30_encoding.md R36, R39). -/
def Obligations.EncodeOfDecode : Prop :=
  ∀ (cw : Word) (i : Instr), decode cw = .ok i → i.wellFormed = true ∧ encode i = cw

/-- 30_encoding.md R36: which words are illegal, that every other word is exactly one of the three commands, and
that an illegal word gets ERR_ILLEGAL and has no other effect. -/
def Obligations.IllegalWordsExactly : Prop :=
  (∀ cw : Word, (∃ r, decode cw = .error r) ↔
    (cwOp cw = 0 ∨ 4 ≤ cwOp cw) ∨ cwRsv cw ≠ 0 ∨ (cwOp cw = 1 ∧ cwLen cw ≠ 0)) ∧
  (∀ cw : Word, cwRsv cw = 0 →
    (cwOp cw = 1 → cwLen cw = 0 → decode cw = .ok .init) ∧
    (cwOp cw = 2 → decode cw = .ok (.absorb (cwLen cw))) ∧
    (cwOp cw = 3 → decode cw = .ok (.squeeze (cwLen cw)))) ∧
  (∀ (s : State) (c : Command) (rest : List HostEvent) (r : IllegalWord),
    s.pending = .command c :: rest → c.framed = true → decode c.word = .error r →
    step s = .next { s with
      pending := rest
      payload := []
      cmdIndex := s.cmdIndex + 1
      replies := s.replies ++
        [.response (responseWord .errIllegal s.engine.phase s.engine.pos) []] })

/-- 30_encoding.md R40: a payload of another length than the word fixes is refused, and with it the whole run; a
payload of that length is not. -/
def Obligations.MisframedCommandRefused : Prop :=
  ∀ (s : State) (c : Command) (rest : List HostEvent), s.pending = .command c :: rest →
    (c.payload.length ≠ inLength c.word →
      step s = .refused .payloadLength ∧ ∀ k, runSteps (k + 1) s = .refused .payloadLength) ∧
    (c.payload.length = inLength c.word → ∃ t, step s = .next t)

/-- 30_encoding.md R37: the payload lengths of every correctly framed command, and that the payload of an ABSORB
with an error status is discarded. -/
def Obligations.PayloadLengths : Prop :=
  ∀ (s : State) (c : Command) (rest : List HostEvent),
    s.pending = .command c :: rest → c.framed = true →
    ∃ t rsp out, step s = .next t ∧ t.replies = s.replies ++ [.response rsp out] ∧ t.payload = [] ∧
      (decode c.word = .ok .init → c.payload = [] ∧ out = []) ∧
      (∀ L, decode c.word = .ok (.absorb L) → c.payload.length = L ∧ out = [] ∧
        (rspStatus rsp ≠ 0 → t.engine = s.engine)) ∧
      (∀ L, decode c.word = .ok (.squeeze L) → c.payload = [] ∧
        out.length = if rspStatus rsp = 0 then L else 0) ∧
      (∀ r, decode c.word = .error r →
        c.payload.length = (if cwOp c.word = 2 then cwLen c.word else 0) ∧ out = [])

/-- 30_encoding.md R38: the fields of the response word, and that every command, whatever its status, gets exactly
one, which reports PHASE and POS after the command (after an error, the unchanged ones). -/
def Obligations.ResponseWordLayout : Prop :=
  (∀ (st : Status) (ph : Phase) (pos : Pos),
    (responseWord st ph pos).toNat = pos.val * 2 ^ 8 + phaseCode ph * 2 ^ 4 + statusCode st ∧
    rspStatus (responseWord st ph pos) = statusCode st ∧ statusCode st ≠ 3 ∧
    rspPhase (responseWord st ph pos) = phaseCode ph ∧
    rspPos (responseWord st ph pos) = pos.val ∧
    rspReserved (responseWord st ph pos) = 0) ∧
  (∀ (s : State) (c : Command) (rest : List HostEvent),
    s.pending = .command c :: rest → c.framed = true →
    ∃ t st out, step s = .next t ∧
      t.replies = s.replies ++ [.response (responseWord st t.engine.phase t.engine.pos) out] ∧
      (st ≠ .ok → t.engine = s.engine))

/-- The response words are exactly the words the host can read back, and reading gives STATUS, PHASE and POS
(30_encoding.md R38; 93_implementation_defined.md U3, U4, U5). -/
def Obligations.ResponseWordsReadBack : Prop :=
  (∀ (st : Status) (ph : Phase) (pos : Pos), readResponse (responseWord st ph pos) = some (st, ph, pos)) ∧
  (∀ (w : Word) (st : Status) (ph : Phase) (pos : Pos),
    readResponse w = some (st, ph, pos) → w = responseWord st ph pos)

/-! ### The lane codec and the byte view -/

/-- 41_lane_codec.md R46. -/
def Obligations.CodecRoundTrip : Prop :=
  (∀ v : Lane, bytesToLane (laneToBytes v) = v) ∧ (∀ b : Vector Byte 8, laneToBytes (bytesToLane b) = b)

/-- 41_lane_codec.md R44: `v[8j+7:8j] = b[j]`, the corner cases and the worked example. -/
def Obligations.BytesToLaneIsLittleEndian : Prop :=
  (∀ (b : Vector Byte 8) (j : Fin 8), (bytesToLane b).extractLsb' (8 * j.val) 8 = b[j]) ∧
  bytesToLane (Vector.replicate 8 0) = 0 ∧
  bytesToLane #v[0, 0, 0, 0, 0, 0, 0, 0x80] = 0x8000000000000000 ∧
  bytesToLane #v[0x01, 0x02, 0x03, 0x04, 0x05, 0x06, 0x07, 0x08] = 0x0807060504030201

/-- 41_lane_codec.md R45: `b[j] = v[8j+7:8j]`, the corner cases and the worked example. -/
def Obligations.LaneToBytesIsLittleEndian : Prop :=
  (∀ (v : Lane) (j : Fin 8), (laneToBytes v)[j] = v.extractLsb' (8 * j.val) 8) ∧
  laneToBytes 0x8000000000000000 = #v[0, 0, 0, 0, 0, 0, 0, 0x80] ∧
  laneToBytes 0xFFFFFFFFFFFFFFFF = Vector.replicate 8 0xFF ∧
  laneToBytes 0x0123456789ABCDEF = #v[0xEF, 0xCD, 0xAB, 0x89, 0x67, 0x45, 0x23, 0x01]

/-- 41_lane_codec.md R47: at the ports both paths are the identity on the 64 wires, and the state's byte view is
laneToBytes applied to each lane. -/
def Obligations.CodecPortsAreIdentity : Prop :=
  (∀ w : BitVec 64, codecLaneOut w = w) ∧ (∀ v : Lane, codecBytesOut v = v) ∧
  (∀ (S : Lanes) (i : Fin 25) (j : Fin 8), readByte S (8 * i.val + j.val) = (laneToBytes S[i])[j])

/-- XorByte XORs `b` into state byte `k` and changes nothing else, neither another byte nor another lane
(20_memory.md R23, 10_state.md R10). -/
def Obligations.XorByteChangesOneByte : Prop :=
  ∀ (S : Lanes) (k : Nat) (b : Byte), k < 200 →
    lane (xorByte S k b) (k / 8) = lane S (k / 8) ^^^ (b.setWidth 64 <<< (8 * (k % 8))) ∧
    readByte (xorByte S k b) k = readByte S k ^^^ b ∧
    (∀ m, m < 200 → m ≠ k → readByte (xorByte S k b) m = readByte S m) ∧
    (∀ i, i < 25 → i ≠ k / 8 → lane (xorByte S k b) i = lane S i)

/-! ### The permutation -/

/-- 42_keccak_permutation.md R48: bit j goes to bit (j + n) mod 64, the two formulas, the corner case n = 0 and the
worked example. -/
def Obligations.RotationMovesBits : Prop :=
  (∀ (v : Lane) (n j : Nat), n ≤ 63 → j < 64 → (rotl64 v n).getLsbD ((j + n) % 64) = v.getLsbD j) ∧
  (∀ v : Lane, rotl64 v 0 = v) ∧
  (∀ (v : Lane) (n : Nat), 1 ≤ n → n ≤ 63 →
    (rotl64 v n).toNat = (v.toNat * 2 ^ n ||| v.toNat / 2 ^ (64 - n)) % 2 ^ 64) ∧
  rotl64 0x8000000000000001 1 = 0x0000000000000003

/-- theta by its formula on columns, its two fixed points named in the rule, and its worked example
(42_keccak_permutation.md R50, pseudocode and examples). -/
def Obligations.ThetaByColumns : Prop :=
  (∀ (A : Lanes) (x y : Nat), x < 5 → y < 5 →
    let C := fun u => laneXY A u 0 ^^^ laneXY A u 1 ^^^ laneXY A u 2 ^^^ laneXY A u 3 ^^^ laneXY A u 4
    laneXY (theta A) x y = laneXY A x y ^^^ (C ((x + 4) % 5) ^^^ rotl64 (C ((x + 1) % 5)) 1)) ∧
  theta (Vector.replicate 25 0) = Vector.replicate 25 0 ∧
  theta (Vector.replicate 25 0xFFFFFFFFFFFFFFFF) = Vector.replicate 25 0xFFFFFFFFFFFFFFFF ∧
  theta (setLane (Vector.replicate 25 0) 0 1) =
    #v[1, 1, 0, 0, 2, 0, 1, 0, 0, 2, 0, 1, 0, 0, 2, 0, 1, 0, 0, 2, 0, 1, 0, 0, 2]

/-- 42_keccak_permutation.md R52: rho rotates each lane by its offset, leaves lane 0, is a bijection, and maps 0 to 0
and all-ones to all-ones; with the worked examples. -/
def Obligations.RhoRotatesEachLane : Prop :=
  (∀ (A : Lanes) (i : Nat), i < 25 → lane (rho A) i = rotl64 (lane A i) (nth 0 rhoOffsets i)) ∧
  (∀ A : Lanes, lane (rho A) 0 = lane A 0) ∧ Function.Bijective rho ∧
  rho (Vector.replicate 25 0) = Vector.replicate 25 0 ∧
  rho (Vector.replicate 25 0xFFFFFFFFFFFFFFFF) = Vector.replicate 25 0xFFFFFFFFFFFFFFFF ∧
  (∀ i, i < 25 → lane (rho (Vector.replicate 25 1)) i = 1 <<< nth 0 rhoOffsets i) ∧
  lane (rho (Vector.replicate 25 1)) 1 = 0x2 ∧
  lane (rho (Vector.replicate 25 1)) 2 = 0x4000000000000000 ∧
  lane (rho (Vector.replicate 25 1)) 3 = 0x10000000 ∧
  lane (rho (Vector.replicate 25 1)) 24 = 0x4000 ∧
  lane (rho (Vector.replicate 25 0x8000000000000001)) 0 = 0x8000000000000001 ∧
  lane (rho (Vector.replicate 25 0x8000000000000001)) 1 = 0x3 ∧
  lane (rho (Vector.replicate 25 0x8000000000000001)) 2 = 0x6000000000000000

/-- 42_keccak_permutation.md R53: the coordinate form of pi, its table form, its inverse form, and the worked example. -/
def Obligations.PiMovesLanes : Prop :=
  (∀ (A : Lanes) (x y : Nat), x < 5 → y < 5 → laneXY (pi A) x y = laneXY A ((x + 3 * y) % 5) x) ∧
  (∀ (A : Lanes) (i : Nat), i < 25 → lane (pi A) i = lane A (nth 0 piSource i)) ∧
  (∀ (A : Lanes) (x y : Nat), x < 5 → y < 5 → laneXY (pi A) y ((2 * x + 3 * y) % 5) = laneXY A x y) ∧
  (∀ A : Lanes, lane (pi A) 0 = lane A 0) ∧
  pi (Vector.ofFn fun i => BitVec.ofNat 64 i.val) =
    tableOfRows #v[0, 6, 12, 18, 24] #v[3, 9, 10, 16, 22] #v[1, 7, 13, 19, 20] #v[4, 5, 11, 17, 23] #v[2, 8, 14, 15, 21]

/-- 42_keccak_permutation.md R54: chi's formula, that each row is computed on its own, the fixed rows, and the worked
examples. -/
def Obligations.ChiActsOnRows : Prop :=
  (∀ (A : Lanes) (x y : Nat), x < 5 → y < 5 →
    laneXY (chi A) x y = laneXY A x y ^^^ (~~~(laneXY A ((x + 1) % 5) y) &&& laneXY A ((x + 2) % 5) y)) ∧
  (∀ (A B : Lanes) (y : Nat), y < 5 → (∀ x, x < 5 → laneXY A x y = laneXY B x y) →
    ∀ x, x < 5 → laneXY (chi A) x y = laneXY (chi B) x y) ∧
  (∀ (A : Lanes) (y : Nat) (v : Lane), y < 5 → (v = 0 ∨ v = 0xFFFFFFFFFFFFFFFF) →
    (∀ x, x < 5 → laneXY A x y = v) → ∀ x, x < 5 → laneXY (chi A) x y = v) ∧
  (∀ A : Lanes, (List.range 5).map (lane A) = [0x0F, 0xF0, 0xFF, 0x00, 0x3C] →
    (List.range 5).map (lane (chi A)) = [0x00, 0xF0, 0xC3, 0x03, 0xCC]) ∧
  (∀ A : Lanes, (List.range 5).map (lane A) = [0, 0, 0xFFFFFFFFFFFFFFFF, 0, 0] →
    (List.range 5).map (lane (chi A)) = [0xFFFFFFFFFFFFFFFF, 0, 0xFFFFFFFFFFFFFFFF, 0, 0])

/-- 42_keccak_permutation.md R56: iota changes lane 0 only, by the round constant; with the worked example. -/
def Obligations.IotaChangesLaneZero : Prop :=
  (∀ (A : Lanes) (ir : Nat), ir < 24 →
    lane (iota A ir) 0 = lane A 0 ^^^ lane roundConstants ir ∧
    ∀ i, 1 ≤ i → i < 25 → lane (iota A ir) i = lane A i) ∧
  iota (Vector.replicate 25 0) 23 = setLane (Vector.replicate 25 0) 0 0x8000000080008008

/-- 42_keccak_permutation.md R57: the round is the five step mappings in order; the corner case and the worked example. -/
def Obligations.RoundKnownAnswers : Prop :=
  (∀ (A : Lanes) (ir : Nat), ir < 24 → keccakRound A ir = iota (chi (pi (rho (theta A)))) ir) ∧
  keccakRound (Vector.replicate 25 0) 0 = setLane (Vector.replicate 25 0) 0 1 ∧
  keccakRound (setLane (Vector.replicate 25 0) 0 1) 0 =
    #v[0, 0x0000100000000000, 0x8000, 0x1, 0x0000100000008000,
       0, 0x0000200000200000, 0, 0x0000200000000000, 0x200000,
       0x2, 0x200, 0, 0x202, 0,
       0x10000400, 0, 0x400, 0x10000000, 0,
       0x0000010000000000, 0, 0x0000010000000004, 0, 0x4]

/-- KeccakF of the all-zero state, all 25 lanes (42_keccak_permutation.md R58, worked example). -/
def Obligations.KeccakFOfZero : Prop :=
  keccakF (Vector.replicate 25 0) =
    tableOfRows
      #v[0xF1258F7940E1DDE7, 0x84D5CCF933C0478A, 0xD598261EA65AA9EE, 0xBD1547306F80494D, 0x8B284E056253D057]
      #v[0xFF97A42D7F8E6FD4, 0x90FEE5A0A44647C4, 0x8C5BDA0CD6192E76, 0xAD30A6F71B19059C, 0x30935AB7D08FFC64]
      #v[0xEB5AA93F2317D635, 0xA9A6E6260D712103, 0x81A57C16DBCF555F, 0x43B831CD0347C826, 0x01F22F1A11A5569F]
      #v[0x05E5635A21D9AE61, 0x64BEFEF28CC970F2, 0x613670957BC46611, 0xB87C5A554FD00ECB, 0x8C3EE88A1CCF32C8]
      #v[0x940C7922AE3A2614, 0x1841F924A2C509E4, 0x16F53526E70465C2, 0x75F644E97F30A13B, 0xEAF1FF7B5CECA249]

/-- KeccakF is a bijection on 1600-bit states (42_keccak_permutation.md R58). -/
def Obligations.KeccakFIsBijective : Prop := Function.Bijective keccakF

/-- The rotation offsets follow their generating rule and the round constants the LFSR
(42_keccak_permutation.md R51, R55; both rules are from general knowledge, G3 and G6). -/
def Obligations.TablesFollowGeneratingRules : Prop :=
  nth 0 rhoOffsets 0 = 0 ∧
  (∀ q ∈ rhoWalk 24 0 1 0, nth 0 rhoOffsets q.1 = q.2) ∧
  (∀ i, 1 ≤ i → i < 25 → i ∈ (rhoWalk 24 0 1 0).map (·.1)) ∧
  (∀ ir, ir < 24 → ∀ b, b < 64 → (lane roundConstants ir).getLsbD b =
    (List.range 7).any fun j => b == 2 ^ j - 1 && rcBit (j + 7 * ir))

/-- The port shape of the permutation: bit 64i + j is bit j of lane i, byte k of the vector is S.byte[k], and the block
gives KeccakF (42_keccak_permutation.md R60). -/
def Obligations.PermutationPortShape : Prop :=
  (∀ (A : Lanes) (i : Fin 25) (j : Nat), j < 64 → (lanesToPort A).getLsbD (64 * i.val + j) = A[i].getLsbD j) ∧
  (∀ (A : Lanes) (k : Nat), k < 200 → (lanesToPort A).extractLsb' (8 * k) 8 = readByte A k) ∧
  (∀ A : Lanes, portToLanes (lanesToPort A) = A) ∧ (∀ w : BitVec 1600, lanesToPort (portToLanes w) = w) ∧
  (∀ A : Lanes, keccakPort (lanesToPort A) = lanesToPort (keccakF A))

/-! ### Absorbing -/

/-- 43_sponge_absorb.md R62: AbsorbByte XORs the byte at POS, advances POS, runs KeccakF exactly when the block is
full, and never writes PHASE. -/
def Obligations.AbsorbByteStep : Prop :=
  ∀ (e : Engine) (b : Byte),
    (absorbByte e b).phase = e.phase ∧
    (e.pos.val < 167 → (absorbByte e b).lanes = xorByte e.lanes e.pos.val b ∧
      (absorbByte e b).pos.val = e.pos.val + 1 ∧ (absorbByte e b).permCount = e.permCount) ∧
    (e.pos.val = 167 → (absorbByte e b).lanes = keccakF (xorByte e.lanes 167 b) ∧
      (absorbByte e b).pos.val = 0 ∧ (absorbByte e b).permCount = e.permCount + 1)

/-- ABSORB LEN while Absorbing completes with status OK: the payload bytes are absorbed in order, exactly
(POS0 + LEN) div 168 KeccakF run, POS becomes (POS0 + LEN) mod 168, PHASE stays, and nothing else changes
(43_sponge_absorb.md R63). -/
def Obligations.AbsorbCompletes : Prop :=
  ∀ (len : Nat) (s : State), s.engine.phase = .absorbing → s.payload.length = len →
    ∃ t, exec (.absorb len) s = .next t ∧
      t.engine = s.payload.foldl absorbByte s.engine ∧
      t.engine.pos.val = (s.engine.pos.val + len) % 168 ∧
      t.engine.permCount = s.engine.permCount + (s.engine.pos.val + len) / 168 ∧
      t.engine.phase = .absorbing ∧
      t.replies = s.replies ++ [.response (responseWord .ok .absorbing t.engine.pos) []] ∧
      t.payload = [] ∧ t.cmdIndex = s.cmdIndex + 1 ∧ t.pending = s.pending ∧ t.freeDraws = s.freeDraws

/-- Inside one block absorption is a plain XOR of the payload into the state bytes from POS on; every other byte,
the capacity region among them, and the count of KeccakF are unchanged (20_memory.md R22, 43_sponge_absorb.md R68). -/
def Obligations.AbsorbWithinBlockXorsPayload : Prop :=
  ∀ (len : Nat) (s : State), s.engine.phase = .absorbing → s.payload.length = len → s.engine.pos.val + len < 168 →
    ∃ t, exec (.absorb len) s = .next t ∧ t.engine.permCount = s.engine.permCount ∧
      ∀ k, k < 200 → readByte t.engine.lanes k =
        if s.engine.pos.val ≤ k ∧ k < s.engine.pos.val + len
        then readByte s.engine.lanes k ^^^ s.payload.getD (k - s.engine.pos.val) 0
        else readByte s.engine.lanes k

/-- 43_sponge_absorb.md R64: ABSORB while Squeezing has status ERR_PHASE, for every LEN, 0 included, and changes no
register; its payload is consumed and discarded. -/
def Obligations.AbsorbWhileSqueezingIsPhaseError : Prop :=
  ∀ (len : Nat) (s : State), s.engine.phase = .squeezing → s.payload.length = len →
    exec (.absorb len) s = .next { s with
      payload := []
      cmdIndex := s.cmdIndex + 1
      replies := s.replies ++ [.response (responseWord .errPhase .squeezing s.engine.pos) []] }

/-- 43_sponge_absorb.md R65: ABSORB 0 changes no register in either phase; its status is OK while Absorbing and
ERR_PHASE while Squeezing. -/
def Obligations.AbsorbZeroChangesNothing : Prop :=
  ∀ s : State, s.payload = [] →
    exec (.absorb 0) s = .next { s with
      payload := []
      cmdIndex := s.cmdIndex + 1
      replies := s.replies ++ [.response (responseWord
        (if s.engine.phase = .absorbing then .ok else .errPhase) s.engine.phase s.engine.pos) []] }

/-- 43_sponge_absorb.md R66: two ways of cutting one input into ABSORB commands leave the same S and POS; in
particular `a` then `b` is `a ++ b`. -/
def Obligations.AbsorbStreamingEquivalence : Prop :=
  ∀ (s₁ s₂ : State) (p₁ p₂ : List (List Byte)),
    s₁.engine = s₂.engine → s₁.engine.phase = .absorbing → p₁.flatten = p₂.flatten →
    (∀ p ∈ p₁, p.length ≤ 16777215) → (∀ p ∈ p₂, p.length ≤ 16777215) →
    s₁.pending = commandEvents (p₁.map absorbCommand) → s₂.pending = commandEvents (p₂.map absorbCommand) →
    ∃ t₁ t₂, runSteps p₁.length s₁ = .next t₁ ∧ runSteps p₂.length s₂ = .next t₂ ∧
      t₁.engine = t₂.engine ∧ t₁.engine = p₁.flatten.foldl absorbByte s₁.engine

/-- 43_sponge_absorb.md R67: the lane-at-a-time algorithm gives exactly the state of the byte-wise rule, for every
state and payload. -/
def Obligations.AbsorbByLanesConforms : Prop :=
  ∀ (e : Engine) (p : List Byte), absorbByLanes e p = p.foldl absorbByte e

/-! ### Finalizing -/

/-- Finalize: 0x1F into the byte at POS, 0x80 into byte 167, no other byte; no KeccakF; POS = 0 and PHASE = Squeezing
(44_sponge_finalize.md R69). -/
def Obligations.FinalizePadsOnce : Prop :=
  (∀ e : Engine,
    (∀ k, k < 200 → readByte (finalize e).lanes k =
      readByte e.lanes k ^^^ (if k = e.pos.val then 0x1F else 0) ^^^ (if k = 167 then 0x80 else 0)) ∧
    (finalize e).pos.val = 0 ∧ (finalize e).phase = .squeezing ∧ (finalize e).permCount = e.permCount) ∧
  (let e := finalize ([0x61, 0x62, 0x63].foldl absorbByte Engine.reset)
   lane e.lanes 0 = 0x000000001F636261 ∧ lane e.lanes 20 = 0x8000000000000000)

/-- The corner cases of the padding position: POS = 167 (one byte takes both XORs), POS = 0, any POS (the bits of the
lane it falls in), and the capacity lanes (44_sponge_finalize.md R71). -/
def Obligations.FinalizeCornerCases : Prop :=
  (∀ e : Engine, e.pos.val = 167 →
    readByte (finalize e).lanes 167 = readByte e.lanes 167 ^^^ 0x9F ∧
    ∀ k, k < 167 → readByte (finalize e).lanes k = readByte e.lanes k) ∧
  (∀ e : Engine, e.pos.val = 0 →
    readByte (finalize e).lanes 0 = readByte e.lanes 0 ^^^ 0x1F ∧
    readByte (finalize e).lanes 167 = readByte e.lanes 167 ^^^ 0x80) ∧
  (∀ e : Engine, e.pos.val / 8 ≠ 20 →
    lane (finalize e).lanes (e.pos.val / 8) =
      lane e.lanes (e.pos.val / 8) ^^^ ((0x1F : Lane) <<< (8 * (e.pos.val % 8)))) ∧
  (∀ e : Engine, e.pos.val / 8 = 20 →
    lane (finalize e).lanes 20 =
      lane e.lanes 20 ^^^ ((0x1F : Lane) <<< (8 * (e.pos.val % 8))) ^^^ 0x8000000000000000) ∧
  (∀ (e : Engine) (i : Nat), 21 ≤ i → i < 25 → lane (finalize e).lanes i = lane e.lanes i)

/-- 10_state.md R13: the only event that takes PHASE from Absorbing to Squeezing is a SQUEEZE with LEN > 0; the only
ones that take it back are INIT and reset; no other event writes it. -/
def Obligations.PhaseTransitions : Prop :=
  ∀ s t : State, step s = .next t →
    (s.engine.phase = .absorbing → (t.engine.phase = .squeezing ↔
      ∃ c rest L, s.pending = .command c :: rest ∧ decode c.word = .ok (.squeeze L) ∧ 0 < L)) ∧
    (s.engine.phase = .squeezing → (t.engine.phase = .absorbing ↔
      (∃ c rest, s.pending = .command c :: rest ∧ decode c.word = .ok .init) ∨
      (∃ rest, s.pending = .reset :: rest) ∨ (∃ c rest, s.pending = .resetDuring c :: rest)))

/-! ### Squeezing -/

/-- 45_sponge_squeeze.md R73: SqueezeByte runs KeccakF first exactly when POS = 0, returns the state byte at POS,
advances POS modulo 168, and never writes PHASE. -/
def Obligations.SqueezeByteStep : Prop :=
  ∀ e : Engine,
    (squeezeByte e).2.phase = e.phase ∧ (squeezeByte e).2.pos.val = (e.pos.val + 1) % 168 ∧
    (e.pos.val = 0 → (squeezeByte e).1 = readByte (keccakF e.lanes) 0 ∧
      (squeezeByte e).2.lanes = keccakF e.lanes ∧ (squeezeByte e).2.permCount = e.permCount + 1) ∧
    (e.pos.val ≠ 0 → (squeezeByte e).1 = readByte e.lanes e.pos.val ∧
      (squeezeByte e).2.lanes = e.lanes ∧ (squeezeByte e).2.permCount = e.permCount)

/-- SQUEEZE LEN with LEN ≥ 1 completes with status OK in both phases: Finalize first if Absorbing, exactly LEN bytes,
POS and the number of KeccakF as the rule counts them, and nothing else changes (45_sponge_squeeze.md R74). -/
def Obligations.SqueezeCompletes : Prop :=
  ∀ (len : Nat) (s : State), s.payload = [] → 1 ≤ len →
    ∃ t out, exec (.squeeze len) s = .next t ∧
      (out, t.engine) = squeezeBytes len (if s.engine.phase = .absorbing then finalize s.engine else s.engine) ∧
      out.length = len ∧
      (let pos₀ := if s.engine.phase = .absorbing then 0 else s.engine.pos.val
       t.engine.pos.val = (pos₀ + len) % 168 ∧
       t.engine.permCount = s.engine.permCount + (len - 1 + pos₀) / 168 + (if pos₀ = 0 then 1 else 0)) ∧
      t.engine.phase = .squeezing ∧
      t.replies = s.replies ++ [.response (responseWord .ok .squeezing t.engine.pos) out] ∧
      t.payload = [] ∧ t.cmdIndex = s.cmdIndex + 1 ∧ t.pending = s.pending ∧ t.freeDraws = s.freeDraws

/-- 45_sponge_squeeze.md R75: SQUEEZE 0 changes no register in either phase and outputs no byte; an ABSORB after it in
the Absorbing phase still succeeds. -/
def Obligations.SqueezeZeroIsNoOp : Prop :=
  (∀ s : State, s.payload = [] →
    exec (.squeeze 0) s = .next { s with
      payload := []
      cmdIndex := s.cmdIndex + 1
      replies := s.replies ++ [.response (responseWord .ok s.engine.phase s.engine.pos) []] }) ∧
  (∀ (s : State) (p : List Byte), s.engine.phase = .absorbing → p.length ≤ 16777215 →
    s.pending = commandEvents [squeezeCommand 0, absorbCommand p] →
    ∃ t, runSteps 2 s = .next t ∧ t.engine = p.foldl absorbByte s.engine ∧
      t.replies = s.replies ++ [.response (responseWord .ok .absorbing s.engine.pos) [],
        .response (responseWord .ok .absorbing t.engine.pos) []])

/-- 45_sponge_squeeze.md R76: two ways of cutting one output length into SQUEEZE commands output the same bytes, exactly
as many as asked for, and leave the same S, POS and PHASE. -/
def Obligations.SqueezeStreamingEquivalence : Prop :=
  ∀ (s₁ s₂ : State) (l₁ l₂ : List Nat),
    s₁.engine = s₂.engine → l₁.sum = l₂.sum →
    (∀ n ∈ l₁, n ≤ 16777215) → (∀ n ∈ l₂, n ≤ 16777215) →
    s₁.pending = commandEvents (l₁.map squeezeCommand) → s₂.pending = commandEvents (l₂.map squeezeCommand) →
    ∃ t₁ t₂ r₁ r₂, runSteps l₁.length s₁ = .next t₁ ∧ runSteps l₂.length s₂ = .next t₂ ∧
      t₁.engine = t₂.engine ∧ t₁.replies = s₁.replies ++ r₁ ∧ t₂.replies = s₂.replies ++ r₂ ∧
      outputStream r₁ = outputStream r₂ ∧ (outputStream r₁).length = l₁.sum

/-- 45_sponge_squeeze.md R77: the lane-at-a-time algorithm gives exactly the output and state of the byte-wise rule,
for every state and every LEN ≥ 1. -/
def Obligations.SqueezeByLanesConforms : Prop :=
  ∀ (e : Engine) (len : Nat), 1 ≤ len → squeezeByLanes len e = squeezeOutput len e

/-- 45_sponge_squeeze.md R78: output byte n of a session, counted across all its SQUEEZE commands, is byte n mod 168 of
KeccakF^(⌊n/168⌋ + 1) of the state right after Finalize. -/
def Obligations.OutputStreamClosedForm : Prop :=
  ∀ (s : State) (lens : List Nat), s.engine.phase = .absorbing → (∀ n ∈ lens, n ≤ 16777215) →
    s.pending = commandEvents (lens.map squeezeCommand) →
    ∃ t r, runSteps lens.length s = .next t ∧ t.replies = s.replies ++ r ∧
      outputStream r = (List.range lens.sum).map fun n =>
        readByte (Nat.repeat keccakF (n / 168 + 1) (finalize s.engine).lanes) (n % 168)

/-! ### Sessions -/

/-- INIT completes from any state with status OK: all lanes 0, POS = 0, PHASE = Absorbing, RSP = 0, nothing else
changed (46_xof_facade.md R79). -/
def Obligations.InitCompletes : Prop :=
  ∀ s : State, s.payload = [] →
    exec .init s = .next { s with
      engine :=
        { lanes := Vector.replicate 25 0, pos := 0, phase := .absorbing, permCount := s.engine.permCount }
      payload := []
      cmdIndex := s.cmdIndex + 1
      replies := s.replies ++ [.response 0x00000000 []] }

/-- 10_state.md R19: every lane 0, POS = 0 and PHASE = Absorbing after reset and after INIT. -/
def Obligations.ResetValues : Prop :=
  (State.reset.engine.lanes = Vector.replicate 25 0 ∧ State.reset.engine.pos.val = 0 ∧
    State.reset.engine.phase = .absorbing) ∧
  (∀ s t : State, exec .init s = .next t →
    t.engine.lanes = Vector.replicate 25 0 ∧ t.engine.pos.val = 0 ∧ t.engine.phase = .absorbing)

/-- Any cutting of a message into ABSORB commands and of an output length into SQUEEZE commands, after an INIT in any
state, outputs SHAKE128 of the message as the one-shot construction gives it: pad, absorb block by block, read the
output blocks (44_sponge_finalize.md R72, 45_sponge_squeeze.md R78, 46_xof_facade.md R81). -/
def Obligations.SessionComputesShake128 : Prop :=
  ∀ (s : State) (chunks : List (List Byte)) (lens : List Nat),
    (∀ p ∈ chunks, p.length ≤ 16777215) → (∀ n ∈ lens, n ≤ 16777215) →
    s.pending = commandEvents
      (initCommand :: (chunks.map absorbCommand ++ lens.map squeezeCommand)) →
    ∃ t r, runSteps (1 + chunks.length + lens.length) s = .next t ∧ t.replies = s.replies ++ r ∧
      outputStream r = shake128 chunks.flatten lens.sum

/-- The pseudo-instructions of 30_encoding.md R42: SHAKE128 expands to correctly framed commands of at most 16,777,215
bytes that output SHAKE128 of the message, and an over-long ABSORB or SQUEEZE expands to commands with the effect of
the unsplit call. -/
def Obligations.PseudoInstructionsExpandExactly : Prop :=
  (∀ (l : AsmLine), (∀ cw p, l ≠ .word cw p) → ∀ c ∈ expandLine l, c.framed = true ∧ ∃ i, decode c.word = .ok i) ∧
  (∀ (s : State) (msg : List Byte) (n : Nat), s.pending = commandEvents (expandLine (.shake128 msg n)) →
    ∃ t r, runSteps (expandLine (.shake128 msg n)).length s = .next t ∧ t.replies = s.replies ++ r ∧
      outputStream r = shake128 msg n) ∧
  (∀ (s : State) (p : List Byte), s.engine.phase = .absorbing →
    s.pending = commandEvents (expandLine (.absorb p)) →
    ∃ t, runSteps (expandLine (.absorb p)).length s = .next t ∧ t.engine = p.foldl absorbByte s.engine) ∧
  (∀ (s : State) (n : Nat), s.pending = commandEvents (expandLine (.squeeze n)) →
    ∃ t r, runSteps (expandLine (.squeeze n)).length s = .next t ∧ t.replies = s.replies ++ r ∧
      (outputStream r, t.engine) = squeezeOutput n s.engine)

/-! ### Errors, ordering, progress -/

/-- 60_exceptions.md R84: a command whose response has a non-OK status changes no register, runs no KeccakF, outputs no
byte, discards its payload, and the next command is the host's next one. -/
def Obligations.ErrorsChangeNothing : Prop :=
  ∀ (s t : State) (c : Command) (rest : List HostEvent) (rsp : Word) (out : List Byte),
    s.pending = .command c :: rest → step s = .next t → t.replies = s.replies ++ [.response rsp out] →
    rspStatus rsp ≠ 0 →
    out = [] ∧ t = { s with
      pending := rest
      payload := []
      cmdIndex := s.cmdIndex + 1
      replies := s.replies ++ [.response rsp []] }

/-- 60_exceptions.md R85, with the causes of R83: each framed command reports exactly one status, ERR_ILLEGAL for an illegal
word in whichever phase, ERR_PHASE for a legal ABSORB while Squeezing, OK otherwise; with the rule's example. -/
def Obligations.StatusAndPriority : Prop :=
  (∀ (s : State) (c : Command) (rest : List HostEvent), s.pending = .command c :: rest → c.framed = true →
    ∃ t st out, step s = .next t ∧
      t.replies = s.replies ++ [.response (responseWord st t.engine.phase t.engine.pos) out] ∧
      (st = .errIllegal ↔ ∃ r, decode c.word = .error r) ∧
      (st = .errPhase ↔ (∃ L, decode c.word = .ok (.absorb L)) ∧ s.engine.phase = .squeezing)) ∧
  (∀ (s : State) (c : Command) (rest : List HostEvent), s.pending = .command c :: rest → c.framed = true →
    cwOp c.word = 2 → cwRsv c.word ≠ 0 → s.engine.phase = .squeezing →
    ∃ t out, step s = .next t ∧
      t.replies = s.replies ++ [.response (responseWord .errIllegal .squeezing s.engine.pos) out])

/-- When the host's next command decodes to `i`, the step is `exec i` with the command taken off the host's list and its
payload at hand; and a placed table word is run by the very next step (46_xof_facade.md R80). -/
def Obligations.StepRunsDecodedCommand : Prop :=
  (∀ (s : State) (c : Command) (rest : List HostEvent) (i : Instr),
    s.pending = .command c :: rest → decode c.word = .ok i →
    step s = exec i { s with pending := rest, payload := c.payload }) ∧
  (∀ (s : State) (nbits w : Nat) (i : Instr), decodeTableWord nbits w = some i →
    step (s.withFetchWord nbits w) = exec i { s with payload := List.replicate (instrInLength i) 0 })

/-- 10_state.md R15: every command advances the command index by exactly one, whatever its status, and the next command is
the host's next one. -/
def Obligations.CommandAdvancesIndexByOne : Prop :=
  ∀ (s t : State) (c : Command) (rest : List HostEvent), s.pending = .command c :: rest → step s = .next t →
    t.cmdIndex = s.cmdIndex + 1 ∧ t.pending = rest

/-- 60_exceptions.md R93: with no command the engine is idle and keeps everything. -/
def Obligations.IdleKeepsState : Prop :=
  ∀ s : State, s.pending = [] → step s = .next s

/-- Reset between commands and reset during a command both leave the reset values, for one instance; the abandoned
command gets no response word, and whatever the host received of it is in no output stream (70_reset_and_hazards.md
R95). The model's own choices, not the rule's: an abandoned command leaves one record, `.abandoned`, in the replies
(log entry 5); the count permCount runs on (log entry 4); a reset leaves the host's remaining events, its replies and
the command index as they are (log entry 13). -/
def Obligations.ResetAtAnyTime : Prop :=
  (∀ (s : State) (rest : List HostEvent), s.pending = .reset :: rest →
    step s = .next { s with
      pending := rest
      engine :=
        { lanes := Vector.replicate 25 0, pos := 0, phase := .absorbing, permCount := s.engine.permCount } }) ∧
  (∀ (s : State) (c : Command) (rest : List HostEvent), s.pending = .resetDuring c :: rest →
    ∃ t received, step s = .next t ∧ t.pending = rest ∧ t.payload = s.payload ∧
      t.engine.lanes = Vector.replicate 25 0 ∧ t.engine.pos.val = 0 ∧ t.engine.phase = .absorbing ∧
      t.replies = s.replies ++ [.abandoned received] ∧ outputStream t.replies = outputStream s.replies)

/-- A command issued before the previous response was delivered is refused (70_reset_and_hazards.md R97 (a)). -/
def Obligations.EarlyCommandRefused : Prop :=
  ∀ (s : State) (c : Command) (rest : List HostEvent), s.pending = .earlyCommand c :: rest →
    step s = .refused .earlyCommand

/-- 70_reset_and_hazards.md R100: every correctly framed command completes with its response; it runs at most
⌊LEN/168⌋ + 1 KeccakF, each of exactly 24 rounds; INIT and an erroneous command run none. -/
def Obligations.CommandProgressBound : Prop :=
  (∀ (s : State) (c : Command) (rest : List HostEvent), s.pending = .command c :: rest → c.framed = true →
    ∃ t rsp out, step s = .next t ∧ t.replies = s.replies ++ [.response rsp out] ∧
      t.engine.permCount ≤ s.engine.permCount + cwLen c.word / 168 + 1 ∧
      (decode c.word = .ok .init ∨ rspStatus rsp ≠ 0 → t.engine.permCount = s.engine.permCount)) ∧
  (∀ A : Lanes, keccakF A = (List.range 24).foldl keccakRound A)

/-- A host that keeps its duties is never refused, whatever its commands and however long it runs
(70_reset_and_hazards.md R97, R100; 60_exceptions.md R94). -/
def Obligations.DutifulHostNeverStops : Prop :=
  ∀ (k : Nat) (s : State), s.hostDutiful → ∃ t, runSteps k s = .next t ∧ t.hostDutiful

/-- The capacity lanes 21..24 change only in a step that runs KeccakF, or by INIT or reset (10_state.md R11). -/
def Obligations.CapacityChangesOnlyByPermutation : Prop :=
  ∀ s t : State, step s = .next t → t.engine.permCount = s.engine.permCount →
    (∀ c rest, s.pending = .command c :: rest → decode c.word ≠ .ok .init) →
    (∀ rest, s.pending ≠ .reset :: rest) → (∀ c rest, s.pending ≠ .resetDuring c :: rest) →
    ∀ i, 21 ≤ i → i < 25 → lane t.engine.lanes i = lane s.engine.lanes i

/-- What the host sees depends only on S, POS, PHASE and its own commands: two machines that agree on these give it the
same replies and agree on them afterwards, whatever their other fields hold (46_xof_facade.md R80, R82). -/
def Obligations.RepliesDependOnlyOnRegisters : Prop :=
  ∀ (k : Nat) (s₁ s₂ t₁ : State),
    s₁.engine.sameRegisters s₂.engine → s₁.pending = s₂.pending →
    (∀ c, HostEvent.resetDuring c ∉ s₁.pending) →
    runSteps k s₁ = .next t₁ →
    ∃ t₂ r, runSteps k s₂ = .next t₂ ∧ t₁.engine.sameRegisters t₂.engine ∧
      t₁.replies = s₁.replies ++ r ∧ t₂.replies = s₂.replies ++ r

/-! ### The invariant -/

/-- Every step keeps the invariant: no payload left over, every reply one this hardware can give, one reply per command,
one free draw per abandoned command. The last two clauses, and that an abandoned command counts as a command, are the
model's own (log entries 3 and 5). -/
def Obligations.StepKeepsInvariant : Prop :=
  ∀ s t : State, s.Inv → step s = .next t → t.Inv

/-- The invariant holds at reset. Its clauses are about the fields outside the engine alone, whose reset values are the
model's choice: no payload, no reply and command index 0 (log entry 1), and no free value drawn, freeDraws 0 (log
entry 3). -/
def Obligations.InvariantAtReset : Prop := State.reset.Inv

/-! ### Instances and transport -/

/-- Instances share no mutable state: an event of one changes no other, events of two different instances commute, and
reset reaches exactly the instances it reaches (10_state.md R20, 20_memory.md R29, 60_exceptions.md R91). -/
def Obligations.InstancesAreIndependent : Prop :=
  (∀ (n : Nat) (p q : Platform n) (j k : Fin n), platformStep k p = .next q → j ≠ k → q[j] = p[j]) ∧
  (∀ (n : Nat) (p p₁ p₂ : Platform n) (j k : Fin n), j ≠ k →
    platformStep j p = .next p₁ → platformStep k p = .next p₂ →
    ∃ q, platformStep k p₁ = .next q ∧ platformStep j p₂ = .next q) ∧
  (∀ (n : Nat) (k : Fin n), (platformReset n)[k] = State.reset) ∧
  (∀ (n : Nat) (p : Platform n) (reached : Fin n → Bool) (k : Fin n),
    ((platformHardReset reached p)[k]).engine.sameRegisters
      (if reached k = true then State.reset.engine else p[k].engine))

/-- The packing of 20_memory.md R31 agrees with the lane codec. The words bytesToLane makes of a payload place each byte
as R31 says and unpack to the payload, and so does every list of words that places them so. Absorbed inside a block from
a lane-aligned POS, each whole word is XORed into its lane as it is; and the rate lanes are the words of a squeezed
block. How many words packWords gives, and the bits of its last one past the payload, are the model's choice (log
entry 12); no clause asks for either. -/
def Obligations.PackedPayloadUnpacks : Prop :=
  (∀ p : List Byte, Packs (packWords p) p ∧ unpackWords (packWords p) p.length = p) ∧
  (∀ (ws : List Lane) (p : List Byte), Packs ws p → unpackWords ws p.length = p) ∧
  (∀ (e : Engine) (ws : List Lane) (p : List Byte), Packs ws p → e.pos.val % 8 = 0 → e.pos.val + p.length < 168 →
    ∀ m, 8 * m + 8 ≤ p.length →
      lane (p.foldl absorbByte e).lanes (e.pos.val / 8 + m) = lane e.lanes (e.pos.val / 8 + m) ^^^ ws.getD m 0) ∧
  (∀ e : Engine, e.pos.val = 0 →
    Packs ((List.range 21).map fun i => lane (squeezeBytes 168 e).2.lanes i) (squeezeBytes 168 e).1)
end

