-- ==== Sys2Proof/Laws/State.lean ====
section
/-! SUPPORT. One lemma per field per update of the state and of the engine, so that no proof unfolds a record update. -/
namespace Sys2Proof.Machine

section Respond
variable (st : Status) (out : List Byte) (e : Engine) (s : State)

@[simp] theorem respond_engine : (respond st out e s).engine = e := rfl
@[simp] theorem respond_pending : (respond st out e s).pending = s.pending := rfl
@[simp] theorem respond_payload : (respond st out e s).payload = [] := rfl
@[simp] theorem respond_cmdIndex : (respond st out e s).cmdIndex = s.cmdIndex + 1 := rfl
@[simp] theorem respond_freeDraws : (respond st out e s).freeDraws = s.freeDraws := rfl
@[simp] theorem respond_replies :
    (respond st out e s).replies = s.replies ++ [.response (responseWord st e.phase e.pos) out] := rfl

@[simp] theorem raiseError_engine : (raiseError st s).engine = s.engine := rfl
@[simp] theorem raiseError_pending : (raiseError st s).pending = s.pending := rfl
@[simp] theorem raiseError_payload : (raiseError st s).payload = [] := rfl
@[simp] theorem raiseError_cmdIndex : (raiseError st s).cmdIndex = s.cmdIndex + 1 := rfl
@[simp] theorem raiseError_freeDraws : (raiseError st s).freeDraws = s.freeDraws := rfl
@[simp] theorem raiseError_replies : (raiseError st s).replies =
    s.replies ++ [.response (responseWord st s.engine.phase s.engine.pos) []] := rfl
end Respond

section Engine
variable (e : Engine)

@[simp] theorem clearEngine_lanes : (clearEngine e).lanes = Vector.replicate 25 0 := rfl
@[simp] theorem clearEngine_pos : (clearEngine e).pos = 0 := rfl
@[simp] theorem clearEngine_phase : (clearEngine e).phase = .absorbing := rfl
@[simp] theorem clearEngine_permCount : (clearEngine e).permCount = e.permCount := rfl

@[simp] theorem permute_lanes : (permute e).lanes = keccakF e.lanes := rfl
@[simp] theorem permute_pos : (permute e).pos = e.pos := rfl
@[simp] theorem permute_phase : (permute e).phase = e.phase := rfl
@[simp] theorem permute_permCount : (permute e).permCount = e.permCount + 1 := rfl

@[simp] theorem finalize_pos : (finalize e).pos = 0 := rfl
@[simp] theorem finalize_phase : (finalize e).phase = .squeezing := rfl
@[simp] theorem finalize_permCount : (finalize e).permCount = e.permCount := rfl
end Engine

section Reset
variable (c : Command) (s : State)

@[simp] theorem runReset_engine : (runReset s).engine = clearEngine s.engine := rfl
@[simp] theorem runReset_pending : (runReset s).pending = s.pending := rfl
@[simp] theorem runReset_payload : (runReset s).payload = s.payload := rfl
@[simp] theorem runReset_replies : (runReset s).replies = s.replies := rfl
@[simp] theorem runReset_cmdIndex : (runReset s).cmdIndex = s.cmdIndex := rfl
@[simp] theorem runReset_freeDraws : (runReset s).freeDraws = s.freeDraws := rfl

@[simp] theorem runResetDuring_engine : (runResetDuring c s).engine = clearEngine s.engine := rfl
@[simp] theorem runResetDuring_pending : (runResetDuring c s).pending = s.pending := rfl
@[simp] theorem runResetDuring_payload : (runResetDuring c s).payload = s.payload := rfl
@[simp] theorem runResetDuring_cmdIndex : (runResetDuring c s).cmdIndex = s.cmdIndex + 1 := rfl
@[simp] theorem runResetDuring_freeDraws : (runResetDuring c s).freeDraws = s.freeDraws + 1 := rfl
@[simp] theorem runResetDuring_replies : (runResetDuring c s).replies = s.replies ++
    [.abandoned ((Config.abandonedBytes s.freeDraws).take (outLength c.word .ok))] := rfl
end Reset

@[simp] theorem withFetchWord_pending (s : State) (nbits w : Nat) :
    (s.withFetchWord nbits w).pending = .command (tableCommand nbits w) :: s.pending := rfl

end Sys2Proof.Machine
end

