-- ==== Sys2Proof/Laws/Ops.lean ====
section
/-! SUPPORT. What each shared operation does, said once: lanes, tables, the byte view of S, framing. -/
namespace Sys2Proof.Machine

theorem nth_eq_getElem {α : Type} {n : Nat} (d : α) (v : Vector α n) (i : Nat) (h : i < n) :
    nth d v i = v[i] := by
  simp [nth, List.getD_eq_getElem?_getD, h]

theorem lane_eq_getElem {n : Nat} (A : Vector Lane n) (i : Nat) (h : i < n) : lane A i = A[i] :=
  nth_eq_getElem 0 A i h

theorem lanes_ext {n : Nat} {A B : Vector Lane n} (h : ∀ i, i < n → lane A i = lane B i) : A = B := by
  apply Vector.ext
  intro i hi
  simpa only [lane_eq_getElem _ i hi] using h i hi

theorem tabulateList_getD {n : Nat} (f : Fin n → Lane) (k : Nat) (hk : k ≤ n) (acc : List Lane) (i : Nat)
    (hi : i < k) : (tabulateList f k hk acc).getD i 0 = f ⟨i, by omega⟩ := by
  suffices h : ∀ (k : Nat) (hk : k ≤ n) (acc : List Lane) (i : Nat),
      (tabulateList f k hk acc).getD i 0 = if h : i < k then f ⟨i, by omega⟩ else acc.getD (i - k) 0 by
    rw [h k hk acc i, dif_pos hi]
  intro k
  induction k with
  | zero => intro _ acc i; simp [tabulateList]
  | succ k ih =>
    intro hk acc i
    rw [tabulateList, withLane_eq, ih]
    rcases Nat.lt_trichotomy i k with h | h | h
    · rw [dif_pos h, dif_pos (by omega)]
    · subst h; simp
    · rw [dif_neg (by omega), dif_neg (by omega)]
      obtain ⟨d, rfl⟩ : ∃ d, i = k + 1 + d := ⟨i - (k + 1), by omega⟩
      simp [show k + 1 + d - k = d + 1 by omega, show k + 1 + d - (k + 1) = d by omega]

/-- The array `tabulate` builds has `f i` at every index (42_keccak_permutation.md R49). -/
theorem lane_tabulate {n : Nat} (f : Fin n → Lane) (i : Nat) (h : i < n) : lane (tabulate f) i = f ⟨i, h⟩ :=
  tabulateList_getD f n (Nat.le_refl n) [] i h

theorem lane_replicate (n : Nat) (v : Lane) (i : Nat) (h : i < n) : lane (Vector.replicate n v) i = v := by
  rw [lane_eq_getElem _ i h, Vector.getElem_replicate]

/-- Writing a lane gives that lane the value and leaves every other lane alone. -/
theorem lane_setLane (A : Lanes) (i j : Nat) (v : Lane) (hj : j < 25) :
    lane (setLane A i v) j = if j = i then v else lane A j := by
  rw [lane_eq_getElem _ j hj, lane_eq_getElem _ j hj, setLane, Vector.getElem_setIfInBounds hj]
  simp only [eq_comm]

@[simp] theorem getLsbD_laneByte (v : Lane) (j t : Nat) :
    (laneByte v j).getLsbD t = (decide (t < 8) && v.getLsbD (8 * j + t)) := by
  simp [laneByte, BitVec.getLsbD_extractLsb']

/-- Two lanes with the same 8 bytes are equal. -/
theorem lane_ext_bytes {v w : Lane} (h : ∀ j, j < 8 → laneByte v j = laneByte w j) : v = w := by
  apply BitVec.eq_of_getLsbD_eq
  intro i hi
  have := congrArg (fun b : Byte => b.getLsbD (i % 8)) (h (i / 8) (by omega))
  simpa only [getLsbD_laneByte, show i % 8 < 8 by omega, decide_true, Bool.true_and,
    show 8 * (i / 8) + i % 8 = i by omega] using this

/-- XORing a byte shifted to place `j` changes byte `j` of a lane and no other. -/
theorem laneByte_xor_shift (v : Lane) (b : Byte) (j m : Nat) (hm : m < 8) :
    laneByte (v ^^^ (b.setWidth 64 <<< (8 * j))) m = if m = j then laneByte v m ^^^ b else laneByte v m := by
  apply BitVec.eq_of_getLsbD_eq
  intro t ht
  have h64 : 8 * m + t < 64 := by omega
  split
  · subst m
    simp only [getLsbD_laneByte, BitVec.getLsbD_xor, BitVec.getLsbD_shiftLeft, BitVec.getLsbD_setWidth, ht, h64,
      show ¬ 8 * j + t < 8 * j by omega, show 8 * j + t - 8 * j = t by omega, show t < 64 by omega,
      decide_true, decide_false, Bool.true_and, Bool.not_false]
  · rename_i hmj
    rcases Nat.lt_or_gt_of_ne hmj with h | h
    · simp only [getLsbD_laneByte, BitVec.getLsbD_xor, BitVec.getLsbD_shiftLeft, h64,
        show 8 * m + t < 8 * j by omega, decide_true, Bool.not_true, Bool.and_false, Bool.false_and,
        Bool.xor_false]
    · have h3 : b.getLsbD (8 * m + t - 8 * j) = false := BitVec.getLsbD_of_ge _ _ (by omega)
      simp only [getLsbD_laneByte, BitVec.getLsbD_xor, BitVec.getLsbD_shiftLeft, BitVec.getLsbD_setWidth, h3,
        Bool.and_false, Bool.xor_false]

/-- The lanes after XorByte (20_memory.md R23). -/
theorem lane_xorByte (S : Lanes) (k i : Nat) (b : Byte) (hi : i < 25) :
    lane (xorByte S k b) i =
      if i = k / 8 then lane S i ^^^ (b.setWidth 64 <<< (8 * (k % 8))) else lane S i := by
  rw [xorByte, lane_setLane _ _ _ _ hi]
  split
  · next h => rw [h]
  · rfl

/-- The bytes after XorByte: byte `k` is XORed, every other byte is as before (20_memory.md R23). -/
theorem readByte_xorByte (S : Lanes) (k m : Nat) (b : Byte) (hm : m < 200) :
    readByte (xorByte S k b) m = if m = k then readByte S m ^^^ b else readByte S m := by
  unfold readByte
  rw [lane_xorByte _ _ _ _ (by omega)]
  by_cases hi : m / 8 = k / 8
  · rw [if_pos hi, laneByte_xor_shift _ _ _ _ (by omega)]
    by_cases hk : m = k
    · rw [if_pos (by omega), if_pos hk]
    · rw [if_neg (by omega), if_neg hk]
  · rw [if_neg hi, if_neg (by rintro rfl; exact hi rfl)]

/-- Two states with the same 200 bytes are equal. -/
theorem lanes_ext_bytes {A B : Lanes} (h : ∀ k, k < 200 → readByte A k = readByte B k) : A = B := by
  apply lanes_ext
  intro i hi
  apply lane_ext_bytes
  intro j hj
  have := h (8 * i + j) (by omega)
  simpa [readByte, show (8 * i + j) / 8 = i by omega, show (8 * i + j) % 8 = j by omega] using this

/-- Everything `withPayload` can do: carry on, the payload having the length asked for, or refuse. -/
theorem withPayload_next_iff (n : Nat) (s k t : State) :
    withPayload n s k = .next t ↔ s.payload.length = n ∧ t = k := by
  unfold withPayload
  split <;> simp_all [eq_comm]

theorem withPayload_of_eq {n : Nat} {s : State} (k : State) (h : s.payload.length = n) :
    withPayload n s k = .next k := if_pos h

theorem withPayload_of_ne {n : Nat} {s : State} (k : State) (h : s.payload.length ≠ n) :
    withPayload n s k = .refused .payloadLength := if_neg h

end Sys2Proof.Machine
end

