-- ==== Sys2Proof/Laws/Keccak.lean ====
section
/-! SUPPORT. What the lane arrays of the permutation hold, by coordinates, and what a rotation does to one bit: the lemmas
the step mappings are opened with. -/
namespace Sys2Proof.Machine

/-- Bit `i` of a rotated lane is bit `i − n` modulo 64 of the lane (42_keccak_permutation.md R48). -/
theorem getLsbD_rotl64 (v : Lane) (n i : Nat) (hn : n ≤ 63) (hi : i < 64) :
    (rotl64 v n).getLsbD i = v.getLsbD ((i + (64 - n)) % 64) := by
  simp only [rotl64, BitVec.getLsbD_or, BitVec.getLsbD_shiftLeft, BitVec.getLsbD_ushiftRight, hi, decide_true,
    Bool.true_and]
  by_cases h : i < n
  · simp [h, show (i + (64 - n)) % 64 = 64 - n + i by omega]
  · have : v.getLsbD (64 - n + i) = false := BitVec.getLsbD_of_ge _ _ (by omega)
    simp [h, this, show (i + (64 - n)) % 64 = i - n by omega]

/-- The array `tabulateXY` builds has `f x y` at (x, y) (42_keccak_permutation.md R49). -/
theorem laneXY_tabulateXY (f : Nat → Nat → Lane) (x y : Nat) : laneXY (tabulateXY f) x y = f (x % 5) (y % 5) := by
  rw [laneXY, tabulateXY, lane_tabulate _ _ (by omega)]
  congr 1 <;> dsimp only <;> omega

/-- Coordinates are modulo 5. -/
theorem laneXY_mod (A : Lanes) (x y : Nat) : laneXY A (x % 5) (y % 5) = laneXY A x y := by simp [laneXY]

/-- Two arrays that agree at the 25 coordinates are equal. -/
theorem lanes_ext_xy {A B : Lanes} (h : ∀ x y, x < 5 → y < 5 → laneXY A x y = laneXY B x y) : A = B := by
  apply lanes_ext
  intro i hi
  simpa [laneXY, show i % 5 + 5 * (i / 5 % 5) = i by omega] using h (i % 5) (i / 5) (by omega) (by omega)

end Sys2Proof.Machine
end

