-- ==== Sys2Proof/Laws/PerInstr.lean ====
section
/-! SUPPORT. The families of statements made per instruction (LAWS.json), and the lemmas on a command word's fields they
rest on. -/
namespace Sys2Proof

theorem commandWord_toNat {op len : Nat} (hop : op < 16) (hlen : len ≤ 16777215) :
    (commandWord op len).toNat = len * 256 + op := by
  rw [commandWord, BitVec.toNat_ofNat, Nat.mod_eq_of_lt (by omega)]

theorem cwOp_eq (cw : Word) : cwOp cw = cw.toNat % 16 := by
  simp [cwOp, BitVec.extractLsb'_toNat]

theorem cwRsv_eq (cw : Word) : cwRsv cw = cw.toNat / 16 % 16 := by
  simp [cwRsv, BitVec.extractLsb'_toNat, Nat.shiftRight_eq_div_pow]

theorem cwLen_eq (cw : Word) : cwLen cw = cw.toNat / 256 := by
  have := cw.isLt
  simp only [cwLen, BitVec.extractLsb'_toNat, Nat.shiftRight_eq_div_pow]
  omega

theorem cwOp_commandWord {op len : Nat} (hop : op < 16) (hlen : len ≤ 16777215) :
    cwOp (commandWord op len) = op := by rw [cwOp_eq, commandWord_toNat hop hlen]; omega

theorem cwRsv_commandWord {op len : Nat} (hop : op < 16) (hlen : len ≤ 16777215) :
    cwRsv (commandWord op len) = 0 := by rw [cwRsv_eq, commandWord_toNat hop hlen]; omega

theorem cwLen_commandWord {op len : Nat} (hop : op < 16) (hlen : len ≤ 16777215) :
    cwLen (commandWord op len) = len := by rw [cwLen_eq, commandWord_toNat hop hlen]; omega

namespace Laws.EncodedFrame

/-- The word of a well-formed command has RSV = 0000 and fixes the command's own payload length
(30_encoding.md R33, R37). -/
def Statement (i : Instr) : Prop :=
  i.wellFormed = true → cwRsv (encode i) = 0 ∧ Machine.inLength (encode i) = Machine.instrInLength i

theorem init : Statement .init := fun _ => by decide

theorem absorb (len : Nat) : Statement (.absorb len) := fun h => by
  have hl : len ≤ 16777215 := by simpa [Instr.wellFormed] using h
  exact ⟨cwRsv_commandWord (by omega) hl, by
    simp [Machine.inLength, encode, cwOp_commandWord (op := 2) (by omega) hl,
      cwLen_commandWord (op := 2) (by omega) hl, Machine.instrInLength]⟩

theorem squeeze (len : Nat) : Statement (.squeeze len) := fun h => by
  have hl : len ≤ 16777215 := by simpa [Instr.wellFormed] using h
  exact ⟨cwRsv_commandWord (by omega) hl, by
    simp [Machine.inLength, encode, cwOp_commandWord (op := 3) (by omega) hl, Machine.instrInLength]⟩

end Laws.EncodedFrame

end Sys2Proof
end

