-- ==== Sys2Proof/Laws/Sponge.lean ====
section
/-! SUPPORT. What the micro-steps of the sponge and their folds do to POS, PHASE and the count of KeccakF, and how they
compose. -/
namespace Sys2Proof.Machine

/-- Everything advancing the cursor in absorption can do (43_sponge_absorb.md R62). -/
theorem advanceAbsorb_cases (e : Engine) (n : Nat) :
    (∃ h : e.pos.val + n < 168, advanceAbsorb e n = { e with pos := ⟨e.pos.val + n, h⟩ }) ∨
    (168 ≤ e.pos.val + n ∧ advanceAbsorb e n = { permute e with pos := 0 }) := by
  unfold advanceAbsorb
  split
  · next h => exact .inl ⟨h, rfl⟩
  · next h => exact .inr ⟨Nat.le_of_not_lt h, rfl⟩

theorem advanceAbsorb_within {e : Engine} {n : Nat} (h : e.pos.val + n < 168) :
    advanceAbsorb e n = { e with pos := ⟨e.pos.val + n, h⟩ } := dif_pos h

theorem advanceAbsorb_full {e : Engine} {n : Nat} (h : 168 ≤ e.pos.val + n) :
    advanceAbsorb e n = { permute e with pos := 0 } := dif_neg (Nat.not_lt.2 h)

/-- Everything AbsorbByte can do (43_sponge_absorb.md R62): within the block, or at its last byte. -/
theorem absorbByte_cases (e : Engine) (b : Byte) :
    (∃ h : e.pos.val + 1 < 168, absorbByte e b =
      { e with lanes := xorByte e.lanes e.pos.val b, pos := ⟨e.pos.val + 1, h⟩ }) ∨
    (e.pos.val = 167 ∧ absorbByte e b =
      { e with lanes := keccakF (xorByte e.lanes 167 b), pos := 0, permCount := e.permCount + 1 }) := by
  have hp := e.pos.isLt
  rcases advanceAbsorb_cases { e with lanes := xorByte e.lanes e.pos.val b } 1 with ⟨h, h'⟩ | ⟨h, h'⟩
  · exact .inl ⟨h, h'⟩
  · have h167 : e.pos.val = 167 := by
      have : 168 ≤ e.pos.val + 1 := h
      omega
    refine .inr ⟨h167, ?_⟩
    rw [absorbByte, h', h167]
    rfl

@[simp] theorem absorbByte_phase (e : Engine) (b : Byte) : (absorbByte e b).phase = e.phase := by
  rcases absorbByte_cases e b with ⟨_, h⟩ | ⟨_, h⟩ <;> rw [h]

theorem absorbByte_pos (e : Engine) (b : Byte) : (absorbByte e b).pos.val = (e.pos.val + 1) % 168 := by
  rcases absorbByte_cases e b with ⟨hlt, h⟩ | ⟨hp, h⟩
  · rw [h, Nat.mod_eq_of_lt hlt]
  · rw [h, hp]; rfl

theorem absorbByte_permCount (e : Engine) (b : Byte) :
    (absorbByte e b).permCount = e.permCount + (e.pos.val + 1) / 168 := by
  rcases absorbByte_cases e b with ⟨hlt, h⟩ | ⟨hp, h⟩
  · rw [h, Nat.div_eq_of_lt hlt]; rfl
  · rw [h, hp]

@[simp] theorem absorbBytes_nil (e : Engine) : absorbBytes e [] = e := rfl

@[simp] theorem absorbBytes_cons (e : Engine) (b : Byte) (p : List Byte) :
    absorbBytes e (b :: p) = absorbBytes (absorbByte e b) p := rfl

/-- A fold over a ++ b is the fold over b started from the fold over a (43_sponge_absorb.md R66). -/
theorem absorbBytes_append (e : Engine) (a b : List Byte) :
    absorbBytes e (a ++ b) = absorbBytes (absorbBytes e a) b := List.foldl_append

@[simp] theorem absorbBytes_phase (e : Engine) (p : List Byte) : (absorbBytes e p).phase = e.phase := by
  induction p generalizing e with
  | nil => rfl
  | cons b p ih => rw [absorbBytes_cons, ih, absorbByte_phase]

theorem absorbBytes_pos (e : Engine) (p : List Byte) :
    (absorbBytes e p).pos.val = (e.pos.val + p.length) % 168 := by
  induction p generalizing e with
  | nil => exact (Nat.mod_eq_of_lt e.pos.isLt).symm
  | cons b p ih =>
    rw [absorbBytes_cons, ih, absorbByte_pos, List.length_cons]
    omega

theorem absorbBytes_permCount (e : Engine) (p : List Byte) :
    (absorbBytes e p).permCount = e.permCount + (e.pos.val + p.length) / 168 := by
  induction p generalizing e with
  | nil =>
    have := e.pos.isLt
    simp only [absorbBytes_nil, List.length_nil]
    omega
  | cons b p ih =>
    rw [absorbBytes_cons, ih, absorbByte_pos, absorbByte_permCount, List.length_cons]
    omega

/-- Everything the first part of SqueezeByte can do (45_sponge_squeeze.md R73). -/
theorem refill_cases (e : Engine) :
    (e.pos.val = 0 ∧ refill e = permute e) ∨ (e.pos.val ≠ 0 ∧ refill e = e) := by
  unfold refill
  split
  · next h => exact .inl ⟨congrArg Fin.val h, rfl⟩
  · next h => exact .inr ⟨fun hv => h (Fin.ext hv), rfl⟩

@[simp] theorem refill_pos (e : Engine) : (refill e).pos = e.pos := by
  rcases refill_cases e with ⟨_, h⟩ | ⟨_, h⟩ <;> simp [h]

@[simp] theorem refill_phase (e : Engine) : (refill e).phase = e.phase := by
  rcases refill_cases e with ⟨_, h⟩ | ⟨_, h⟩ <;> simp [h]

@[simp] theorem squeezeByte_phase (e : Engine) : (squeezeByte e).2.phase = e.phase := refill_phase e

@[simp] theorem squeezeByte_lanes (e : Engine) : (squeezeByte e).2.lanes = (refill e).lanes := rfl

theorem squeezeByte_pos (e : Engine) : (squeezeByte e).2.pos.val = (e.pos.val + 1) % 168 := by
  show ((refill e).pos + 1).val = _
  rw [refill_pos, Fin.val_add]
  rfl

theorem squeezeByte_permCount (e : Engine) :
    (squeezeByte e).2.permCount = e.permCount + if e.pos.val = 0 then 1 else 0 := by
  show (refill e).permCount = _
  rcases refill_cases e with ⟨hp, h⟩ | ⟨hp, h⟩ <;> simp [h, hp]

@[simp] theorem squeezeBytes_zero (e : Engine) : squeezeBytes 0 e = ([], e) := rfl

theorem squeezeBytes_succ (n : Nat) (e : Engine) : squeezeBytes (n + 1) e =
    ((squeezeByte e).1 :: (squeezeBytes n (squeezeByte e).2).1, (squeezeBytes n (squeezeByte e).2).2) := rfl

/-- Squeezing m + n bytes is squeezing m and then n (45_sponge_squeeze.md R76). -/
theorem squeezeBytes_add (m n : Nat) (e : Engine) : squeezeBytes (m + n) e =
    ((squeezeBytes m e).1 ++ (squeezeBytes n (squeezeBytes m e).2).1, (squeezeBytes n (squeezeBytes m e).2).2) := by
  induction m generalizing e with
  | zero => simp
  | succ m ih =>
    rw [show m + 1 + n = m + n + 1 by omega, squeezeBytes_succ, ih, squeezeBytes_succ]
    rfl

@[simp] theorem squeezeBytes_length (n : Nat) (e : Engine) : (squeezeBytes n e).1.length = n := by
  induction n generalizing e with
  | zero => rfl
  | succ n ih => rw [squeezeBytes_succ, List.length_cons, ih]

@[simp] theorem squeezeBytes_phase (n : Nat) (e : Engine) : (squeezeBytes n e).2.phase = e.phase := by
  induction n generalizing e with
  | zero => rfl
  | succ n ih => rw [squeezeBytes_succ, ih, squeezeByte_phase]

theorem squeezeBytes_pos (n : Nat) (e : Engine) : (squeezeBytes n e).2.pos.val = (e.pos.val + n) % 168 := by
  induction n generalizing e with
  | zero => exact (Nat.mod_eq_of_lt e.pos.isLt).symm
  | succ n ih =>
    rw [squeezeBytes_succ, ih, squeezeByte_pos]
    omega

/-- How many KeccakF `n` output bytes take (45_sponge_squeeze.md R74). -/
theorem squeezeBytes_permCount (n : Nat) (e : Engine) : (squeezeBytes (n + 1) e).2.permCount =
    e.permCount + (n + e.pos.val) / 168 + if e.pos.val = 0 then 1 else 0 := by
  induction n generalizing e with
  | zero =>
    have := e.pos.isLt
    rw [squeezeBytes_succ, squeezeBytes_zero, squeezeByte_permCount]
    omega
  | succ n ih =>
    have hp := e.pos.isLt
    rw [squeezeBytes_succ, ih, squeezeByte_permCount, squeezeByte_pos]
    split <;> split <;> omega

theorem finalizeIfAbsorbing_absorbing {e : Engine} (h : e.phase = .absorbing) :
    finalizeIfAbsorbing e = finalize e := by simp [finalizeIfAbsorbing, h]

theorem finalizeIfAbsorbing_squeezing {e : Engine} (h : e.phase = .squeezing) :
    finalizeIfAbsorbing e = e := by simp [finalizeIfAbsorbing, h]

@[simp] theorem finalizeIfAbsorbing_phase (e : Engine) : (finalizeIfAbsorbing e).phase = .squeezing := by
  rcases h : e.phase with _ | _
  · rw [finalizeIfAbsorbing_absorbing h, finalize_phase]
  · rw [finalizeIfAbsorbing_squeezing h, h]

@[simp] theorem squeezeOutput_zero (e : Engine) : squeezeOutput 0 e = ([], e) := rfl

theorem squeezeOutput_pos {n : Nat} (h : n ≠ 0) (e : Engine) :
    squeezeOutput n e = squeezeBytes n (finalizeIfAbsorbing e) := if_neg h

@[simp] theorem squeezeOutput_length (n : Nat) (e : Engine) : (squeezeOutput n e).1.length = n := by
  unfold squeezeOutput
  split
  · next h => simp [h]
  · exact squeezeBytes_length _ _

end Sys2Proof.Machine
end

