-- ==== Sys2Proof/Laws/Step.lean ====
section
/-! SUPPORT. What a command and a step can do, said once as inversion lemmas, and when they complete. -/
namespace Sys2Proof.Machine

/-- A legal word fixes the payload length of the command it decodes to (30_encoding.md R37). -/
theorem inLength_of_decode {cw : Word} {i : Instr} (h : decode cw = .ok i) : inLength cw = instrInLength i := by
  unfold decode at h
  unfold inLength
  split at h
  · cases h
  split at h
  · next h1 =>
    split at h
    · cases h; simp [h1, instrInLength]
    · cases h
  split at h
  · next h2 => cases h; simp [h2, instrInLength]
  split at h
  · next h2 _ => cases h; simp [h2, instrInLength]
  · cases h

/-- Everything a legal command can do when it completes. -/
theorem exec_cases {i : Instr} {s t : State} (h : exec i s = .next t) :
    (i = .init ∧ s.payload.length = 0 ∧ t = respond .ok [] (clearEngine s.engine) s) ∨
    (∃ len, i = .absorb len ∧ s.payload.length = len ∧ s.engine.phase = .absorbing ∧
      t = respond .ok [] (absorbBytes s.engine s.payload) s) ∨
    (∃ len, i = .absorb len ∧ s.payload.length = len ∧ s.engine.phase = .squeezing ∧ t = raiseError .errPhase s) ∨
    (∃ len, i = .squeeze len ∧ s.payload.length = 0 ∧
      t = respond .ok (squeezeOutput len s.engine).1 (squeezeOutput len s.engine).2 s) := by
  cases i with
  | init =>
    obtain ⟨hp, rfl⟩ := (withPayload_next_iff _ _ _ _).1 h
    exact .inl ⟨rfl, hp, rfl⟩
  | absorb len =>
    obtain ⟨hp, ht⟩ := (withPayload_next_iff _ _ _ _).1 h
    rcases hph : s.engine.phase with _ | _
    · exact .inr (.inl ⟨len, rfl, hp, rfl, by simpa [hph] using ht⟩)
    · exact .inr (.inr (.inl ⟨len, rfl, hp, rfl, by simpa [hph] using ht⟩))
  | squeeze len =>
    obtain ⟨hp, rfl⟩ := (withPayload_next_iff _ _ _ _).1 h
    exact .inr (.inr (.inr ⟨len, rfl, hp, rfl⟩))

/-- A legal command completes exactly when its payload has the length the command fixes. -/
theorem exec_completes_iff (i : Instr) (s : State) :
    (∃ t, exec i s = .next t) ↔ s.payload.length = instrInLength i := by
  cases i <;> exact ⟨fun ⟨_, h⟩ => ((withPayload_next_iff _ _ _ _).1 h).1, fun h => ⟨_, withPayload_of_eq _ h⟩⟩

/-- Otherwise it is refused by the one name. -/
theorem exec_refused {i : Instr} {s : State} (h : s.payload.length ≠ instrInLength i) :
    exec i s = .refused .payloadLength := by
  cases i <;> exact withPayload_of_ne _ h

/-- The state a command starts from: taken off the host's list, its payload at hand. -/
def startCommand (c : Command) (rest : List HostEvent) (s : State) : State :=
  { s with pending := rest, payload := c.payload }

section StartCommand
variable (c : Command) (rest : List HostEvent) (s : State)

@[simp] theorem startCommand_engine : (startCommand c rest s).engine = s.engine := rfl
@[simp] theorem startCommand_pending : (startCommand c rest s).pending = rest := rfl
@[simp] theorem startCommand_payload : (startCommand c rest s).payload = c.payload := rfl
@[simp] theorem startCommand_replies : (startCommand c rest s).replies = s.replies := rfl
@[simp] theorem startCommand_cmdIndex : (startCommand c rest s).cmdIndex = s.cmdIndex := rfl
@[simp] theorem startCommand_freeDraws : (startCommand c rest s).freeDraws = s.freeDraws := rfl
end StartCommand

/-- A step on a legal command is that command's meaning. -/
theorem step_command_ok {s : State} {c : Command} {rest : List HostEvent} {i : Instr}
    (hp : s.pending = .command c :: rest) (hd : decode c.word = .ok i) :
    step s = exec i (startCommand c rest s) := by
  simp only [step, runNext, hp, runEvent, runCommand, hd]
  rfl

/-- A step on an illegal word. -/
theorem step_command_illegal {s : State} {c : Command} {rest : List HostEvent} {r : IllegalWord}
    (hp : s.pending = .command c :: rest) (hd : decode c.word = .error r) :
    step s = withPayload (inLength c.word) (startCommand c rest s) (raiseError .errIllegal (startCommand c rest s)) := by
  simp only [step, runNext, hp, runEvent, runCommand, hd]
  rfl

theorem step_idle {s : State} (hp : s.pending = []) : step s = .next s := by
  simp only [step, runNext, hp]

theorem step_early {s : State} {c : Command} {rest : List HostEvent} (hp : s.pending = .earlyCommand c :: rest) :
    step s = .refused .earlyCommand := by simp only [step, runNext, hp, runEvent]

theorem step_reset {s : State} {rest : List HostEvent} (hp : s.pending = .reset :: rest) :
    step s = .next (runReset { s with pending := rest }) := by simp only [step, runNext, hp, runEvent]

theorem step_resetDuring {s : State} {c : Command} {rest : List HostEvent}
    (hp : s.pending = .resetDuring c :: rest) :
    step s = .next (runResetDuring c { s with pending := rest }) := by simp only [step, runNext, hp, runEvent]

/-- Everything a step on a command can do when it completes: one of the four legal outcomes of `exec_cases`, or
ERR_ILLEGAL. In every case the command was correctly framed. -/
theorem command_step_cases {s t : State} {c : Command} {rest : List HostEvent}
    (hp : s.pending = .command c :: rest) (h : step s = .next t) :
    c.payload.length = inLength c.word ∧
    ((∃ r, decode c.word = .error r ∧ t = raiseError .errIllegal (startCommand c rest s)) ∨
    (∃ i, decode c.word = .ok i ∧ exec i (startCommand c rest s) = .next t)) := by
  rcases hd : decode c.word with r | i
  · rw [step_command_illegal hp hd, withPayload_next_iff] at h
    exact ⟨h.1, .inl ⟨r, rfl, h.2⟩⟩
  · rw [step_command_ok hp hd] at h
    refine ⟨?_, .inr ⟨i, rfl, h⟩⟩
    rw [inLength_of_decode hd]
    exact (exec_completes_iff i _).1 ⟨t, h⟩

/-- A correctly framed command completes (30_encoding.md R40, 46_xof_facade.md R80). -/
theorem command_step_completes {s : State} {c : Command} {rest : List HostEvent}
    (hp : s.pending = .command c :: rest) (hf : c.payload.length = inLength c.word) : ∃ t, step s = .next t := by
  rcases hd : decode c.word with r | i
  · exact ⟨_, by rw [step_command_illegal hp hd]; exact withPayload_of_eq _ hf⟩
  · rw [step_command_ok hp hd]
    exact (exec_completes_iff i _).2 (by rw [← inLength_of_decode hd]; exact hf)

/-- A command whose payload has another length is refused (30_encoding.md R40). -/
theorem command_step_refused {s : State} {c : Command} {rest : List HostEvent}
    (hp : s.pending = .command c :: rest) (hf : c.payload.length ≠ inLength c.word) :
    step s = .refused .payloadLength := by
  rcases hd : decode c.word with r | i
  · rw [step_command_illegal hp hd]
    exact withPayload_of_ne _ hf
  · rw [step_command_ok hp hd]
    exact exec_refused (by rw [← inLength_of_decode hd]; exact hf)

/-- Everything a step can do when it completes. -/
theorem step_cases {s t : State} (h : step s = .next t) :
    (s.pending = [] ∧ t = s) ∨
    (∃ c rest, s.pending = .command c :: rest ∧ c.payload.length = inLength c.word ∧
      ((∃ r, decode c.word = .error r ∧ t = raiseError .errIllegal (startCommand c rest s)) ∨
      (∃ i, decode c.word = .ok i ∧ exec i (startCommand c rest s) = .next t))) ∨
    (∃ rest, s.pending = .reset :: rest ∧ t = runReset { s with pending := rest }) ∨
    (∃ c rest, s.pending = .resetDuring c :: rest ∧ t = runResetDuring c { s with pending := rest }) := by
  rcases hp : s.pending with _ | ⟨ev, rest⟩
  · rw [step_idle hp] at h
    cases h
    exact .inl ⟨rfl, rfl⟩
  · cases ev with
    | command c =>
      exact .inr (.inl ⟨c, rest, rfl, (command_step_cases hp h).1, (command_step_cases hp h).2⟩)
    | earlyCommand c => rw [step_early hp] at h; cases h
    | reset =>
      rw [step_reset hp] at h
      cases h
      exact .inr (.inr (.inl ⟨rest, rfl, rfl⟩))
    | resetDuring c =>
      rw [step_resetDuring hp] at h
      cases h
      exact .inr (.inr (.inr ⟨c, rest, rfl, rfl⟩))

/-- Running one more step. -/
theorem runSteps_succ (k : Nat) {s t : State} (h : step s = .next t) : runSteps (k + 1) s = runSteps k t := by
  simp only [runSteps, h]

theorem runSteps_refused (k : Nat) {s : State} {r : Refusal} (h : step s = .refused r) :
    runSteps (k + 1) s = .refused r := by
  simp only [runSteps, h]

@[simp] theorem runSteps_zero (s : State) : runSteps 0 s = .next s := rfl

/-- Running `j + k` steps is running `j` and then `k`. -/
theorem runSteps_add {j : Nat} (k : Nat) {s t : State} (h : runSteps j s = .next t) :
    runSteps (j + k) s = runSteps k t := by
  induction j generalizing s with
  | zero => cases h; rw [Nat.zero_add]
  | succ j ih =>
    rcases hs : step s with u | r | r
    · rw [runSteps_succ _ hs] at h
      rw [show j + 1 + k = j + k + 1 by omega, runSteps_succ _ hs, ih h]
    · cases r
    · rw [runSteps_refused _ hs] at h; cases h

theorem core_run_next (M : Host.Core) (k : Nat) {s t : M.State} (h : M.step s = .next t) :
    M.run (k + 1) s = M.run k t := by simp only [Host.Core.run, h]

theorem core_run_refused (M : Host.Core) (k : Nat) {s : M.State} {r : M.Refusal} (h : M.step s = .refused r) :
    M.run (k + 1) s = .refused r := by simp only [Host.Core.run, h]

/-- The run of the host's interface is `runSteps`. -/
theorem core_run_eq (k : Nat) (s : State) : Host.Core.run core k s = runSteps k s := by
  induction k generalizing s with
  | zero => rfl
  | succ k ih =>
    rcases h : step s with t | r | r
    · exact (core_run_next core k h).trans ((ih t).trans (runSteps_succ k h).symm)
    · cases r
    · exact (core_run_refused core k h).trans (runSteps_refused k h).symm

end Sys2Proof.Machine
end

