-- ==== Sys2Proof/Laws/Transport.lean ====
section
/-! SUPPORT. What packing and unpacking bus words give, word by word and byte by byte. -/
namespace Sys2Proof.Machine

@[simp] theorem packWords_length (p : List Byte) : (packWords p).length = (p.length + 7) / 8 := by simp [packWords]

/-- Word `m` of a packed payload (20_memory.md R31). -/
theorem packWords_getD (p : List Byte) (m : Nat) (h : m < (p.length + 7) / 8) :
    (packWords p).getD m 0 = bytesToLane (eightBytes p (8 * m)) := by
  simp [packWords, List.getD_eq_getElem?_getD, h]

/-- Stream byte 8m + j of a list of bus words is byte j of word m (20_memory.md R31). -/
theorem getElem?_wordBytes (ws : List Lane) (m j : Nat) (hj : j < 8) :
    (ws.flatMap fun w => (laneToBytes w).toList)[8 * m + j]? = ws[m]?.map fun w => laneByte w j := by
  induction ws generalizing m with
  | nil => simp
  | cons w ws ih =>
    rw [List.flatMap_cons]
    cases m with
    | zero =>
      rw [List.getElem?_append_left (by simp; omega)]
      simp [laneToBytes, hj]
    | succ m =>
      rw [List.getElem?_append_right (by simp; omega), Vector.length_toList,
        show 8 * (m + 1) + j - 8 = 8 * m + j by omega, ih]
      rfl

end Sys2Proof.Machine
end

