-- ==== Sys2Proof/Tests/Slice0.lean ====
section
/-! SUPPORT. Small tests of the model, with expected results from the spec's worked examples and test vectors
(95_test_vectors.md, named V-…), and a witness for the hypotheses of each statement of Obligations.lean. -/
namespace Sys2Proof.Tests
open Sys2Proof Sys2Proof.Machine

/-! ### Helpers -/

/-- The engine of V-AB-1: "abc" absorbed, POS = 3. -/
def abcEngine : Engine :=
  { lanes := (Vector.replicate 25 0).set 0 0x636261, pos := 3, phase := .absorbing, permCount := 0 }

/-- The engine of V-AB-5: 167 bytes A3 absorbed, POS = 167. -/
def fullEngine : Engine :=
  { lanes := Vector.ofFn fun i => if i.val < 20 then 0xA3A3A3A3A3A3A3A3 else if i.val = 20 then 0x00A3A3A3A3A3A3A3 else 0
    pos := 167, phase := .absorbing, permCount := 0 }

/-- An engine in the Squeezing phase at POS = 16. -/
def squeezingEngine : Engine := { abcEngine with phase := .squeezing, pos := 16, permCount := 1 }

/-- A state with an engine, a payload at hand and the host's next events. -/
def stateOf (e : Engine) (payload : List Byte) (pending : List HostEvent) : State :=
  { engine := e, pending := pending, payload := payload, replies := [], cmdIndex := 0, freeDraws := 0 }

/-- What a test reads of an outcome. -/
def readNext {α : Type} (f : State → α) : Host.Outcome State Fault Refusal → Option α
  | .next t => some (f t)
  | _ => none

/-- The refusal of an outcome. -/
def readRefusal : Host.Outcome State Fault Refusal → Option Refusal
  | .refused r => some r
  | _ => none

/-! ### WellFormed and Decode: words written from 30_encoding.md R33, R35, R43 -/

theorem test_wellFormed_absorb_too_long : (Instr.absorb 16777216).wellFormed = false := by decide
theorem test_wellFormed_squeeze_too_long : (Instr.squeeze 16777216).wellFormed = false := by decide
theorem test_wellFormed_longest :
    (Instr.absorb 16777215).wellFormed = true ∧ (Instr.squeeze 16777215).wellFormed = true := by decide

theorem test_decode_init : decode 0b00000000000000000000000000000001 = .ok .init := by decide
theorem test_decode_absorb : decode 0b00000000000000111110100000000010 = .ok (.absorb 1000) := by decide
theorem test_decode_squeeze : decode 0b00000000000000011111010000000011 = .ok (.squeeze 500) := by decide
theorem test_decode_illegal : decode 0b00000000000000000000000100000001 = .error .initWithLength ∧
    decode 0b00000000000000000000001100010010 = .error .reservedBits ∧
    decode 0b00000000000000000000000000000100 = .error .reservedOp ∧ decode 0 = .error .reservedOp := by decide
theorem test_decodeTableWord : decodeTableWord 32 0x302 = some (.absorb 3) ∧ decodeTableWord 32 0x312 = none := by
  decide
theorem test_encode : encode (.absorb 16777215) = 0xFFFFFF02 ∧ encode (.squeeze 32) = 0x2003 ∧ encode .init = 1 := by
  decide

/-! ### Shared operations -/

/-- The response words of V-ER-1, V-SRC-4 and V-AB-5. -/
theorem test_responseWord : responseWord .errPhase .squeezing 16 = 0x1012 ∧
    responseWord .ok .squeezing 164 = 0xA410 ∧ responseWord .ok .absorbing 167 = 0xA700 := by decide

/-- A word with STATUS = 3, a reserved bit or POS = 168 is no response (93_implementation_defined.md U3 to U5). -/
theorem test_readResponse_rejects :
    readResponse 3 = none ∧ readResponse 4 = none ∧ readResponse 0x10000 = none ∧ readResponse 0xA800 = none := by
  decide

/-- V-LC-1, V-LC-3. -/
theorem test_codec : bytesToLane #v[1, 2, 3, 4, 5, 6, 7, 8] = 0x0807060504030201 ∧
    laneToBytes 0x0123456789ABCDEF = #v[0xEF, 0xCD, 0xAB, 0x89, 0x67, 0x45, 0x23, 0x01] := by decide

/-- V-KP-1. -/
theorem test_rotl64 : rotl64 0x8000000000000001 1 = 3 ∧ rotl64 1 63 = 0x8000000000000000 ∧ rotl64 5 0 = 5 := by decide

/-- V-KP-3: theta with only lane 7 set. -/
theorem test_theta : theta ((Vector.replicate 25 0).set 7 0x8000000000000000) =
    #v[0, 1, 0, 0x8000000000000000, 0, 0, 1, 0x8000000000000000, 0x8000000000000000, 0,
       0, 1, 0, 0x8000000000000000, 0, 0, 1, 0, 0x8000000000000000, 0, 0, 1, 0, 0x8000000000000000, 0] := by
  decide +kernel

/-- V-KP-6: pi with lane i = i. -/
theorem test_pi : (let A := pi (Vector.ofFn fun i => BitVec.ofNat 64 i.val)
    [lane A 0, lane A 1, lane A 5, lane A 10, lane A 20, lane A 24]) = [0, 6, 3, 1, 2, 21] := by
  decide +kernel

/-- V-KP-8: one round of the state with only lane 0 = 1, four of its lanes. -/
theorem test_round : (let A := keccakRound ((Vector.replicate 25 0).set 0 1) 0
    [lane A 0, lane A 4, lane A 15, lane A 22]) = [0, 0x0000100000008000, 0x10000400, 0x0000010000000004] := by
  decide +kernel

/-- V-FN-1 and V-FN-3: both paddings, and the two XORs in one byte at POS = 167. -/
theorem test_finalize : lane (finalize abcEngine).lanes 0 = 0x1F636261 ∧
    lane (finalize abcEngine).lanes 20 = 0x8000000000000000 ∧
    lane (finalize fullEngine).lanes 20 = 0x9FA3A3A3A3A3A3A3 := by decide +kernel

/-! ### The commands, one step each -/

/-- 46_xof_facade.md R79: from a Squeezing state, all lanes 0, POS 0, RSP 0. -/
theorem test_init : readNext (fun t => (t.engine.lanes, t.engine.pos, t.engine.phase, t.replies))
    (step (stateOf squeezingEngine [] [.command ⟨0x00000001, []⟩])) =
      some (Vector.replicate 25 0, 0, .absorbing, [.response 0 []]) := by decide +kernel

/-- V-AB-1: ABSORB "abc" after reset. -/
theorem test_absorb_abc : readNext (fun t => (t.engine, t.replies))
    (step (stateOf Engine.reset [] [.command ⟨0x00000302, [0x61, 0x62, 0x63]⟩])) =
      some (abcEngine, [.response 0x00000300 []]) := by decide +kernel

/-- V-AB-6: the byte that fills a block runs KeccakF in the same command. -/
theorem test_absorb_fills_block :
    readNext (fun t => (lane t.engine.lanes 0, lane t.engine.lanes 20, t.engine.pos, t.engine.permCount, t.replies))
    (step (stateOf fullEngine [] [.command ⟨0x00000102, [0xA3]⟩])) =
      some (0x7FAAF4D610E331D4, 0xF1AE12A1024A32D9, 0, 1, [.response 0x00000000 []]) := by decide +kernel

/-- V-SQ-1: SQUEEZE 32 after "abc", the published SHAKE128("abc"). -/
theorem test_squeeze_abc : readNext (fun t => (t.replies, t.engine.pos, t.engine.phase))
    (step (stateOf abcEngine [] [.command ⟨0x00002003, []⟩])) =
      some ([.response 0x00002010
        [0x58, 0x81, 0x09, 0x2d, 0xd8, 0x18, 0xbf, 0x5c, 0xf8, 0xa3, 0xdd, 0xb7, 0x93, 0xfb, 0xcb, 0xa7,
         0x40, 0x97, 0xd5, 0xc5, 0x26, 0xa6, 0xd3, 0x5f, 0x97, 0xb8, 0x33, 0x51, 0x94, 0x0f, 0x2c, 0xc8]],
        32, .squeezing) := by decide +kernel

/-- V-SQ-2: SQUEEZE 0 neither finalizes nor outputs. -/
theorem test_squeeze_zero : readNext (fun t => (t.engine, t.replies))
    (step (stateOf abcEngine [] [.command ⟨0x00000003, []⟩])) =
      some (abcEngine, [.response 0x00000300 []]) := by decide +kernel

/-- V-ER-1 and V-ER-3: ERR_PHASE, and ERR_ILLEGAL winning over it, with the engine unchanged. -/
theorem test_errors :
    readNext (fun t => (t.engine, t.replies)) (step (stateOf squeezingEngine [] [.command ⟨0x00000102, [0x64]⟩])) =
      some (squeezingEngine, [.response 0x00001012 []]) ∧
    readNext (fun t => (t.engine, t.replies))
      (step (stateOf squeezingEngine [] [.command ⟨0x00000312, [0x61, 0x62, 0x63]⟩])) =
      some (squeezingEngine, [.response 0x00001011 []]) := by decide +kernel

/-- 30_encoding.md R40 and 70_reset_and_hazards.md R97: what the model refuses. -/
theorem test_refusals :
    readRefusal (step (stateOf abcEngine [] [.command ⟨0x00000302, [0x61]⟩])) = some .payloadLength ∧
    readRefusal (step (stateOf abcEngine [] [.command ⟨0x00000001, [0x61]⟩])) = some .payloadLength ∧
    readRefusal (step (stateOf abcEngine [] [.earlyCommand ⟨0x00000001, []⟩])) = some .earlyCommand := by decide

/-- A placed table word is run by the very next step. -/
theorem test_withFetchWord :
    readNext (fun t => (t.replies, t.cmdIndex)) (step (State.reset.withFetchWord 32 0x00000302)) =
      some ([.response 0x00000300 []], 1) := by decide +kernel

/-- The syntax of 30_encoding.md R41 on lines of P1 to P5 (95_test_vectors.md). -/
theorem test_parseLine :
    parseLine ['I', 'N', 'I', 'T', ' ', ';', 'x'] = some [.init] ∧
    parseLine ['A', 'B', 'S', 'O', 'R', 'B', ' ', '1', ',', ' ', '6', '4'] = some [.absorb [0x64]] ∧
    parseLine ['A', 'B', 'S', 'O', 'R', 'B', ' ', '3', ' ', 'x', ' ', 'A', '3'] = some [.absorb [0xA3, 0xA3, 0xA3]] ∧
    parseLine ['S', 'Q', 'U', 'E', 'E', 'Z', 'E', ' ', '3', '2'] = some [.squeeze 32] ∧
    parseLine ['A', 'B', 'S', 'O', 'R', 'B', ' ', '0', ' ', ';', 'x'] = some [.absorb []] ∧
    parseLine ['A', 'B', 'S', 'O', 'R', 'B', ' ', '0', ','] = some [.absorb []] ∧
    parseLine ['A', 'B', 'S', 'O', 'R', 'B', ' ', '1'] = none ∧
    parseLine ['A', 'B', 'S', 'O', 'R', 'B', ' ', '2', ',', ' ', '6', '4'] = none := by decide +kernel

/-! ### Witnesses for the hypotheses of the statements -/

theorem witness_EncodingSummary : (16777215 : Nat) ≤ Config.maxLen := by decide
theorem witness_DecodeOfEncode : (Instr.squeeze 16777215).wellFormed = true ∧ Instr.init.wellFormed = true := by decide
theorem witness_EncodeOfDecode : decode 0xFFFFFF02 = .ok (.absorb 16777215) := by decide

/-- For PayloadLengths, ResponseWordLayout, StatusAndPriority and CommandProgressBound. One command per clause: legal, and illegal by each clause, all correctly framed. -/
theorem witness_framed_commands :
    (Command.mk 0x1 []).framed = true ∧ decode 0x1 = .ok .init ∧
    (Command.mk 0x102 [7]).framed = true ∧ decode 0x102 = .ok (.absorb 1) ∧
    (Command.mk 0xFFFFFF03 []).framed = true ∧ decode 0xFFFFFF03 = .ok (.squeeze 16777215) ∧
    (Command.mk 0x1F2 []).framed = false ∧ (Command.mk 0x1F2 [7]).framed = true ∧
    decode 0x1F2 = .error .reservedBits ∧
    (Command.mk 0x101 []).framed = true ∧ decode 0x101 = .error .initWithLength ∧
    (Command.mk 0xF [] ).framed = true ∧ decode 0xF = .error .reservedOp := by decide

theorem witness_IllegalWordsExactly :
    (stateOf abcEngine [] [.command ⟨0x1F2, [7]⟩]).pending = .command ⟨0x1F2, [7]⟩ :: [] ∧
    (Command.mk 0x1F2 [7]).framed = true ∧ decode 0x1F2 = .error .reservedBits ∧
    cwRsv 0x1 = 0 ∧ cwOp 0x1 = 1 ∧ cwLen 0x1 = 0 ∧ cwOp 0x2 = 2 ∧ cwOp 0x3 = 3 := by decide

theorem witness_MisframedCommandRefused :
    (stateOf abcEngine [] [.command ⟨0x102, []⟩]).pending = .command ⟨0x102, []⟩ :: [] ∧
    (Command.mk 0x102 []).payload.length ≠ inLength 0x102 ∧
    (Command.mk 0x102 [7]).payload.length = inLength 0x102 := by decide

/-- Also for ResponseWordLayout and CommandProgressBound: one status of each kind. -/
theorem witness_PayloadLengths :
    (stateOf squeezingEngine [] [.command ⟨0x102, [7]⟩]).pending = .command ⟨0x102, [7]⟩ :: [] ∧
    (Command.mk 0x102 [7]).framed = true ∧ rspStatus (responseWord .errPhase .squeezing 16) ≠ 0 ∧
    rspStatus (responseWord .ok .squeezing 16) = 0 := by decide

theorem witness_ResponseWordsReadBack : readResponse 0xA712 = some (.errPhase, .squeezing, 167) := by decide
theorem witness_XorByteChangesOneByte : (199 : Nat) < 200 ∧ (198 : Nat) ≠ 199 ∧ (24 : Nat) < 25 ∧ (23 : Nat) ≠ 199 / 8 := by
  decide
theorem witness_RotationMovesBits : (63 : Nat) ≤ 63 ∧ (63 : Nat) < 64 ∧ 1 ≤ (1 : Nat) := by decide
/-- The largest and smallest coordinates, lane and round indices of ThetaByColumns, RhoRotatesEachLane, PiMovesLanes,
IotaChangesLaneZero, RoundKnownAnswers and TablesFollowGeneratingRules. -/
theorem witness_StepMappingCoordinates : (4 : Nat) < 5 ∧ (0 : Nat) < 5 ∧ (24 : Nat) < 25 ∧ (23 : Nat) < 24 := by decide

theorem witness_ChiActsOnRows :
    (let A : Lanes := #v[0x0F, 0xF0, 0xFF, 0, 0x3C, 0, 0, 0, 0, 0, 0, 0, 0, 0, 0, 0, 0, 0, 0, 0, 0, 0, 0, 0, 0]
     (List.range 5).map (lane A) = [0x0F, 0xF0, 0xFF, 0x00, 0x3C] ∧ ∀ x < 5, laneXY A x 1 = 0) ∧
    (let A : Lanes := (Vector.replicate 25 0).set 2 0xFFFFFFFFFFFFFFFF
     (List.range 5).map (lane A) = [0, 0, 0xFFFFFFFFFFFFFFFF, 0, 0]) ∧
    (∀ x < 5, laneXY (Vector.replicate 25 0xFFFFFFFFFFFFFFFF) x 4 = 0xFFFFFFFFFFFFFFFF) := by decide +kernel

/-- The two clauses meet between POS = 166 and POS = 167. -/
theorem witness_AbsorbByteStep : ({ fullEngine with pos := 166 } : Engine).pos.val < 167 ∧ fullEngine.pos.val = 167 := by
  decide

theorem witness_AbsorbCompletes :
    (stateOf abcEngine [1, 2] []).engine.phase = .absorbing ∧ (stateOf abcEngine [1, 2] []).payload.length = 2 := by decide

theorem witness_AbsorbWithinBlockXorsPayload :
    let s := stateOf abcEngine (List.replicate 164 7) []
    s.engine.phase = .absorbing ∧ s.payload.length = 164 ∧ s.engine.pos.val + 164 = 167 := by decide +kernel

theorem witness_AbsorbWhileSqueezingIsPhaseError :
    (stateOf squeezingEngine [1] []).engine.phase = .squeezing ∧ (stateOf squeezingEngine [1] []).payload.length = 1 := by
  decide

theorem witness_PermutationPortShape : (63 : Nat) < 64 ∧ (199 : Nat) < 200 := by decide

/-- For AbsorbZeroChangesNothing, SqueezeZeroIsNoOp and InitCompletes, in both phases. -/
theorem witness_payload_empty :
    (stateOf abcEngine [] []).payload = [] ∧ (stateOf squeezingEngine [] []).payload = [] := by decide

theorem witness_AbsorbStreamingEquivalence :
    let s₁ := stateOf abcEngine [] (commandEvents ([[1], [2, 3]].map absorbCommand))
    let s₂ := stateOf abcEngine [] (commandEvents ([[1, 2], [], [3]].map absorbCommand))
    s₁.engine = s₂.engine ∧ s₁.engine.phase = .absorbing ∧
      ([[1], [2, 3]] : List (List Byte)).flatten = [[1, 2], [], [3]].flatten ∧
      (∀ p ∈ ([[1], [2, 3]] : List (List Byte)), p.length ≤ 16777215) ∧
      (∀ p ∈ ([[1, 2], [], [3]] : List (List Byte)), p.length ≤ 16777215) := by decide +kernel

theorem witness_FinalizeCornerCases : fullEngine.pos.val = 167 ∧ fullEngine.pos.val / 8 = 20 ∧ Engine.reset.pos.val = 0 ∧
    abcEngine.pos.val / 8 ≠ 20 ∧ (21 : Nat) ≤ 21 ∧ (24 : Nat) < 25 := by decide

/-- A completing step from each phase, one of each kind the clauses name. -/
theorem witness_PhaseTransitions :
    (readNext (·.engine.phase) (step (stateOf squeezingEngine [] [.command ⟨0x1, []⟩])) = some .absorbing) ∧
    (readNext (·.engine.phase) (step (stateOf squeezingEngine [] [.reset])) = some .absorbing) ∧
    (readNext (·.engine.phase) (step (stateOf squeezingEngine [] [.resetDuring ⟨0x103, []⟩])) = some .absorbing) ∧
    (readNext (·.engine.phase) (step (stateOf abcEngine [] [.command ⟨0x103, []⟩])) = some .squeezing) ∧
    (readNext (·.engine.phase) (step (stateOf abcEngine [] [.command ⟨0x3, []⟩])) = some .absorbing) := by decide +kernel

theorem witness_SqueezeByteStep : Engine.reset.pos.val = 0 ∧ squeezingEngine.pos.val ≠ 0 := by decide
theorem witness_SqueezeCompletes : (stateOf squeezingEngine [] []).payload = [] ∧ 1 ≤ (1 : Nat) := by decide

theorem witness_SqueezeByLanesConforms : 1 ≤ (16777215 : Nat) := by decide

theorem witness_SqueezeZeroIsNoOp :
    let s := stateOf abcEngine [] (commandEvents [squeezeCommand 0, absorbCommand [7]])
    s.engine.phase = .absorbing ∧ ([7] : List Byte).length ≤ 16777215 ∧
      s.pending = commandEvents [squeezeCommand 0, absorbCommand [7]] := by decide

theorem witness_SqueezeStreamingEquivalence :
    let s₁ := stateOf squeezingEngine [] (commandEvents ([1, 2].map squeezeCommand))
    let s₂ := stateOf squeezingEngine [] (commandEvents ([0, 3].map squeezeCommand))
    s₁.engine = s₂.engine ∧ ([1, 2] : List Nat).sum = [0, 3].sum ∧
      (∀ n ∈ [1, 2], n ≤ 16777215) ∧ (∀ n ∈ [0, 3], n ≤ 16777215) := by decide

theorem witness_OutputStreamClosedForm :
    let s := stateOf abcEngine [] (commandEvents ([16, 300].map squeezeCommand))
    s.engine.phase = .absorbing ∧ (∀ n ∈ [16, 300], n ≤ 16777215) ∧
      s.pending = commandEvents ([16, 300].map squeezeCommand) := by decide

theorem witness_ResetValues : ∃ t, exec .init (stateOf squeezingEngine [] []) = .next t :=
  (exec_completes_iff .init _).2 rfl

theorem witness_SessionComputesShake128 :
    let s := stateOf squeezingEngine [] (commandEvents
      (initCommand :: ([[1], [2, 3]].map absorbCommand ++ [5, 0, 200].map squeezeCommand)))
    (∀ p ∈ ([[1], [2, 3]] : List (List Byte)), p.length ≤ 16777215) ∧ (∀ n ∈ [5, 0, 200], n ≤ 16777215) ∧
      s.pending = commandEvents (initCommand :: ([[1], [2, 3]].map absorbCommand ++ [5, 0, 200].map squeezeCommand)) := by
  decide +kernel

theorem witness_PseudoInstructionsExpandExactly :
    (∀ cw p, AsmLine.shake128 [1] 5 ≠ .word cw p) ∧ squeezeCommand 5 ∈ expandLine (.shake128 [1] 5) ∧
    (stateOf abcEngine [] (commandEvents (expandLine (.absorb [1])))).engine.phase = .absorbing :=
  ⟨(fun _ _ h => by cases h), by decide +kernel, rfl⟩

theorem witness_ErrorsChangeNothing :
    readNext (fun t => (t.replies, rspStatus 0x1012)) (step (stateOf squeezingEngine [] [.command ⟨0x102, [7]⟩])) =
      some ([.response 0x1012 []], 2) := by decide +kernel

theorem witness_StatusAndPriority :
    (Command.mk 0x312 [1, 2, 3]).framed = true ∧ cwOp 0x312 = 2 ∧ cwRsv 0x312 ≠ 0 ∧
      squeezingEngine.phase = .squeezing := by decide

theorem witness_StepRunsDecodedCommand :
    (stateOf abcEngine [] [.command ⟨0x302, [1, 2, 3]⟩]).pending = .command ⟨0x302, [1, 2, 3]⟩ :: [] ∧
    decode 0x302 = .ok (.absorb 3) ∧ decodeTableWord 32 0x2 = some (.absorb 0) := by decide

theorem witness_CommandAdvancesIndexByOne :
    readNext (·.cmdIndex) (step (stateOf squeezingEngine [] [.command ⟨0x0, []⟩])) = some 1 := by decide

theorem witness_IdleKeepsState : State.reset.pending = [] := by decide

theorem witness_ResetAtAnyTime :
    (stateOf squeezingEngine [] [.reset]).pending = .reset :: [] ∧
    (stateOf squeezingEngine [] [.resetDuring ⟨0x2003, []⟩]).pending = .resetDuring ⟨0x2003, []⟩ :: [] := by decide

theorem witness_EarlyCommandRefused :
    (stateOf abcEngine [] [.earlyCommand ⟨0x1, []⟩]).pending = .earlyCommand ⟨0x1, []⟩ :: [] := by decide

theorem witness_DutifulHostNeverStops :
    (stateOf abcEngine [] [.command ⟨0x102, [7]⟩, .reset, .resetDuring ⟨0x302, []⟩]).hostDutiful := by
  unfold State.hostDutiful
  decide

theorem witness_CapacityChangesOnlyByPermutation :
    readNext (·.engine.permCount) (step (stateOf abcEngine [] [.command ⟨0x102, [7]⟩])) = some abcEngine.permCount ∧
    decode 0x102 ≠ .ok .init := by decide +kernel

theorem witness_RepliesDependOnlyOnRegisters :
    let s₁ := stateOf abcEngine [] [.command ⟨0x102, [7]⟩]
    let s₂ := { stateOf { abcEngine with permCount := 9 } [1] [.command ⟨0x102, [7]⟩] with cmdIndex := 4 }
    s₁.engine.sameRegisters s₂.engine ∧ s₁.pending = s₂.pending ∧ (∀ c, HostEvent.resetDuring c ∉ s₁.pending) ∧
      ∃ t, runSteps 1 s₁ = .next t :=
  ⟨⟨rfl, rfl, rfl⟩, rfl, by simp [stateOf], _, rfl⟩

theorem witness_StepKeepsInvariant :
    (stateOf abcEngine [] [.command ⟨0x102, [7]⟩]).Inv ∧
    readNext (·.cmdIndex) (step (stateOf abcEngine [] [.command ⟨0x102, [7]⟩])) = some 1 := by
  unfold State.Inv
  decide

theorem witness_InstancesAreIndependent : ∃ p₁ p₂, platformStep (0 : Fin 2) (platformReset 2) = .next p₁ ∧
    platformStep (1 : Fin 2) (platformReset 2) = .next p₂ ∧ (0 : Fin 2) ≠ 1 := ⟨_, _, rfl, rfl, by decide⟩

/-- Words with bits past the payload and one word more than it needs, absorbed at the last POS that leaves room in its
block; and an engine at POS = 0. -/
theorem witness_PackedPayloadUnpacks :
    Packs [0x0807060504030201, 0xFF0F0E0D0C0B0A09, 7] [1, 2, 3, 4, 5, 6, 7, 8, 9, 10, 11, 12, 13, 14, 15] ∧
    ({ abcEngine with pos := 152 } : Engine).pos.val % 8 = 0 ∧ 152 + 15 < 168 ∧ 8 * 0 + 8 ≤ 15 ∧
    Engine.reset.pos.val = 0 := by
  unfold Packs
  decide

/-- Word and payload of 20_memory.md R31: stream byte 8m + j at bits [8j+7:8j] of word m. -/
theorem test_packWords : packWords [1, 2, 3, 4, 5, 6, 7, 8, 9] = [0x0807060504030201, 0x09] ∧ packWords [] = [] ∧
    unpackWords [0x0807060504030201, 0xFFFFFFFFFFFFFF09] 9 = [1, 2, 3, 4, 5, 6, 7, 8, 9] := by decide

end Sys2Proof.Tests
end

section
/-! SUPPORT and proofs of the family 10_state.md: what a completing command and a completing step do to the host's side,
to PHASE and to the capacity lanes, and what a step of a platform moves. -/
namespace Sys2Proof.Machine

/-! ### INIT and reset -/

/-- INIT, when it completes, leaves the cleared engine (46_xof_facade.md R79). -/
theorem exec_init_engine {s t : State} (h : exec .init s = .next t) : t.engine = clearEngine s.engine := by
  obtain ⟨-, rfl⟩ := (withPayload_next_iff _ _ _ _).1 h
  rfl

/-- Settles O43: both the reset state and INIT hold the cleared registers. -/
theorem resetValues : Obligations.ResetValues := by
  refine ⟨⟨rfl, rfl, rfl⟩, fun s t h => ?_⟩
  rw [exec_init_engine h]
  exact ⟨rfl, rfl, rfl⟩

/-! ### The host's side of a command -/

/-- A legal command that completes ends in one response (30_encoding.md R32, 00_scope.md R7). -/
theorem exec_eq_respond {i : Instr} {s t : State} (h : exec i s = .next t) : ∃ st out e, t = respond st out e s := by
  rcases exec_cases h with ⟨-, -, ht⟩ | ⟨_, -, -, -, ht⟩ | ⟨_, -, -, -, ht⟩ | ⟨_, -, -, ht⟩ <;> exact ⟨_, _, _, ht⟩

/-- Every command that completes ends in one response, an illegal word included. -/
theorem command_step_eq_respond {s t : State} {c : Command} {rest : List HostEvent}
    (hp : s.pending = .command c :: rest) (h : step s = .next t) :
    ∃ st out e, t = respond st out e (startCommand c rest s) := by
  obtain ⟨-, ⟨_, -, ht⟩ | ⟨_, -, hx⟩⟩ := command_step_cases hp h
  · exact ⟨_, _, _, ht⟩
  · exact exec_eq_respond hx

/-- Settles O49: the command was taken off the host's list, and its one response advances the index by one. -/
theorem commandAdvancesIndexByOne : Obligations.CommandAdvancesIndexByOne := by
  intro s t c rest hp h
  obtain ⟨st, out, e, rfl⟩ := command_step_eq_respond hp h
  exact ⟨respond_cmdIndex st out e _, respond_pending st out e _⟩

/-! ### PHASE -/

/-- PHASE after a command, from PHASE before it (10_state.md R13). -/
def phaseAfter : Instr → Phase → Phase
  | .init, _ => .absorbing
  | .absorb _, ph => ph
  | .squeeze len, ph => if len = 0 then ph else .squeezing

theorem squeezeOutput_phase (len : Nat) (e : Engine) :
    (squeezeOutput len e).2.phase = phaseAfter (.squeeze len) e.phase := by
  rcases len with _ | n
  · rfl
  · rw [squeezeOutput_pos n.succ_ne_zero, squeezeBytes_phase, finalizeIfAbsorbing_phase]
    rfl

theorem exec_phase {i : Instr} {s t : State} (h : exec i s = .next t) :
    t.engine.phase = phaseAfter i s.engine.phase := by
  rcases exec_cases h with ⟨rfl, -, rfl⟩ | ⟨_, rfl, -, -, rfl⟩ | ⟨_, rfl, -, -, rfl⟩ | ⟨len, rfl, -, rfl⟩
  · rfl
  · exact absorbBytes_phase _ _
  · rfl
  · exact squeezeOutput_phase len s.engine

theorem phaseAfter_absorbing_eq_squeezing_iff (i : Instr) :
    phaseAfter i .absorbing = .squeezing ↔ ∃ len, i = .squeeze len ∧ 0 < len := by
  cases i <;> simp [phaseAfter, Nat.pos_iff_ne_zero]

theorem phaseAfter_squeezing_eq_absorbing_iff (i : Instr) : phaseAfter i .squeezing = .absorbing ↔ i = .init := by
  cases i <;> simp [phaseAfter]

/-- Settles O35: of the events that complete, only a legal command and the two resets write PHASE, and a command writes
it as `phaseAfter` says. -/
theorem phaseTransitions : Obligations.PhaseTransitions := by
  intro s t h
  rcases step_cases h with ⟨hp, rfl⟩ | ⟨c, rest, hp, -, ⟨r, hd, rfl⟩ | ⟨i, hd, hx⟩⟩ | ⟨rest, hp, rfl⟩ |
    ⟨c, rest, hp, rfl⟩
  · constructor <;> intro hph <;> simp [hp, hph]
  · constructor <;> intro hph <;> simp [hp, hd, hph]
  · constructor <;> intro hph
    · simp [hp, hd, exec_phase hx, hph, phaseAfter_absorbing_eq_squeezing_iff]
    · simp [hp, hd, exec_phase hx, hph, phaseAfter_squeezing_eq_absorbing_iff]
  · constructor <;> intro _ <;> simp [hp]
  · constructor <;> intro _ <;> simp [hp]

/-! ### The capacity lanes -/

/-- XorByte into a rate byte leaves the capacity lanes alone (10_state.md R11). -/
theorem lane_xorByte_capacity (S : Lanes) {k i : Nat} (b : Byte) (hk : k < 168) (hi : 21 ≤ i) (hi' : i < 25) :
    lane (xorByte S k b) i = lane S i := by
  rw [lane_xorByte _ _ _ _ hi', if_neg (by omega)]

/-- Absorbing within one block leaves the capacity lanes alone. -/
theorem absorbBytes_capacity_within {e : Engine} {p : List Byte} (h : e.pos.val + p.length < 168) {i : Nat}
    (hi : 21 ≤ i) (hi' : i < 25) : lane (absorbBytes e p).lanes i = lane e.lanes i := by
  induction p generalizing e with
  | nil => rfl
  | cons b p ih =>
    rw [List.length_cons] at h
    rcases absorbByte_cases e b with ⟨hlt, hb⟩ | ⟨h167, -⟩
    · rw [absorbBytes_cons, hb, ih (by dsimp only; omega)]
      exact lane_xorByte_capacity _ _ e.pos.isLt hi hi'
    · omega

theorem absorbBytes_capacity {e : Engine} {p : List Byte} (h : (absorbBytes e p).permCount = e.permCount) {i : Nat}
    (hi : 21 ≤ i) (hi' : i < 25) : lane (absorbBytes e p).lanes i = lane e.lanes i := by
  rw [absorbBytes_permCount] at h
  exact absorbBytes_capacity_within (by omega) hi hi'

/-- Reading the unread rest of a block writes no lane (45_sponge_squeeze.md R73). -/
theorem squeezeBytes_lanes_within {n : Nat} {e : Engine} (h0 : e.pos.val ≠ 0) (h : e.pos.val + n ≤ 168) :
    (squeezeBytes n e).2.lanes = e.lanes := by
  induction n generalizing e with
  | zero => rfl
  | succ n ih =>
    have hl : (squeezeByte e).2.lanes = e.lanes := by
      obtain ⟨h0', -⟩ | ⟨-, hr⟩ := refill_cases e
      · exact absurd h0' h0
      · rw [squeezeByte_lanes, hr]
    rw [squeezeBytes_succ]
    rcases n with _ | n
    · exact hl
    · have hpos := squeezeByte_pos e
      rw [Nat.mod_eq_of_lt (by omega)] at hpos
      exact (ih (by omega) (by omega)).trans hl

/-- A SQUEEZE that runs no KeccakF writes no lane: it delivers nothing, or the phase is Squeezing and the block holds
enough unread output, since Finalize leaves POS = 0 (45_sponge_squeeze.md R74, 44_sponge_finalize.md R69). -/
theorem squeezeOutput_lanes {len : Nat} {e : Engine} (h : (squeezeOutput len e).2.permCount = e.permCount) :
    (squeezeOutput len e).2.lanes = e.lanes := by
  rcases len with _ | n
  · rfl
  rw [squeezeOutput_pos n.succ_ne_zero, squeezeBytes_permCount] at h
  rw [squeezeOutput_pos n.succ_ne_zero]
  rcases hph : e.phase with _ | _
  · rw [finalizeIfAbsorbing_absorbing hph, finalize_permCount, finalize_pos, Fin.val_zero, if_pos rfl] at h
    omega
  · rw [finalizeIfAbsorbing_squeezing hph] at h ⊢
    split at h
    · omega
    · next h0 => exact squeezeBytes_lanes_within h0 (by omega)

/-- Settles O55: without KeccakF, absorbing stays in its block and squeezing reads only; every other completing event
that is left keeps the engine. -/
theorem capacityChangesOnlyByPermutation : Obligations.CapacityChangesOnlyByPermutation := by
  intro s t h hc hinit hreset hduring i hi hi'
  rcases step_cases h with ⟨-, rfl⟩ | ⟨c, rest, hp, -, ⟨r, -, rfl⟩ | ⟨j, hd, hx⟩⟩ | ⟨rest, hp, -⟩ | ⟨c, rest, hp, -⟩
  · rfl
  · rfl
  · rcases exec_cases hx with ⟨rfl, -, -⟩ | ⟨_, -, -, -, rfl⟩ | ⟨_, -, -, -, rfl⟩ | ⟨len, -, -, rfl⟩
    · exact absurd hd (hinit c rest hp)
    · exact absorbBytes_capacity hc hi hi'
    · rfl
    · exact congrArg (lane · i) (squeezeOutput_lanes hc)
  · exact absurd hp (hreset rest)
  · exact absurd hp (hduring c rest)

/-! ### Platforms -/

/-- Everything a platform's step at `k` can do when it completes: engine `k` takes its own step, in place. -/
theorem platformStep_next_iff {n : Nat} (k : Fin n) (p q : Platform n) :
    platformStep k p = .next q ↔ ∃ s, step p[k] = .next s ∧ q = p.set k.val s k.isLt := by
  unfold platformStep
  cases step p[k] <;> simp [eq_comm]

theorem platformStep_getElem_of_ne {n : Nat} {j k : Fin n} {p q : Platform n} (h : platformStep k p = .next q)
    (hjk : j ≠ k) : q[j] = p[j] := by
  obtain ⟨s, -, rfl⟩ := (platformStep_next_iff k p q).1 h
  exact Vector.getElem_set_ne _ _ (Fin.val_ne_of_ne hjk.symm)

/-- Steps of two different engines commute: each finds the state it needs untouched by the other. -/
theorem platformStep_comm {n : Nat} {j k : Fin n} {p p₁ p₂ : Platform n} (hjk : j ≠ k)
    (hj : platformStep j p = .next p₁) (hk : platformStep k p = .next p₂) :
    ∃ q, platformStep k p₁ = .next q ∧ platformStep j p₂ = .next q := by
  have hk₁ : p₁[k] = p[k] := platformStep_getElem_of_ne hj hjk.symm
  have hj₂ : p₂[j] = p[j] := platformStep_getElem_of_ne hk hjk
  obtain ⟨sj, hsj, rfl⟩ := (platformStep_next_iff j p p₁).1 hj
  obtain ⟨sk, hsk, rfl⟩ := (platformStep_next_iff k p p₂).1 hk
  exact ⟨_, (platformStep_next_iff k _ _).2 ⟨sk, hk₁ ▸ hsk, rfl⟩,
    (platformStep_next_iff j _ _).2 ⟨sj, hj₂ ▸ hsj, Vector.set_comm _ _ (Fin.val_ne_of_ne hjk)⟩⟩

theorem platformHardReset_getElem {n : Nat} (reached : Fin n → Bool) (p : Platform n) (k : Fin n) :
    (platformHardReset reached p)[k] = if reached k then runReset p[k] else p[k] := by
  simp [platformHardReset]

theorem clearEngine_sameRegisters_reset (e : Engine) : (clearEngine e).sameRegisters State.reset.engine :=
  ⟨rfl, rfl, rfl⟩

/-- Settles O59: a step writes the one engine it is taken on, and a reset works engine by engine. -/
theorem instancesAreIndependent : Obligations.InstancesAreIndependent := by
  refine ⟨fun n p q j k h hjk => platformStep_getElem_of_ne h hjk,
    fun n p p₁ p₂ j k hjk hj hk => platformStep_comm hjk hj hk,
    fun n k => Vector.getElem_replicate _, fun n p reached k => ?_⟩
  rw [platformHardReset_getElem]
  split
  · exact clearEngine_sameRegisters_reset _
  · exact ⟨rfl, rfl, rfl⟩

end Sys2Proof.Machine
end

section
/-! SUPPORT and proofs of the family 20_memory.md: the bytes of a lane and of the state, what absorption and squeezing
inside one block do to them, and the bus words that carry them. -/
namespace Sys2Proof.Machine

/-! ### The bytes of a lane -/

theorem laneByte_xor (v w : Lane) (j : Nat) : laneByte (v ^^^ w) j = laneByte v j ^^^ laneByte w j :=
  BitVec.extractLsb'_xor

theorem laneByte_or (v w : Lane) (j : Nat) : laneByte (v ||| w) j = laneByte v j ||| laneByte w j :=
  BitVec.extractLsb'_or

@[simp] theorem laneByte_zero (j : Nat) : laneByte 0#64 j = 0#8 := BitVec.extractLsb'_zero

/-- A byte shifted to place `j` of an empty lane is its byte `j`, and the others are 0. -/
theorem laneByte_shift (b : Byte) (j m : Nat) (hm : m < 8) :
    laneByte (b.setWidth 64 <<< (8 * j)) m = if m = j then b else 0 := by
  simpa using laneByte_xor_shift 0 b j m hm

/-- The first `n` steps of bytesToLane place the first `n` bytes (41_lane_codec.md R44). -/
theorem laneByte_foldl_range (b : Vector Byte 8) (n j : Nat) (hj : j < 8) :
    laneByte ((List.range n).foldl (fun v i => v ||| ((nth 0 b i).setWidth 64 <<< (8 * i))) 0) j =
      if j < n then nth 0 b j else 0 := by
  induction n with
  | zero => exact laneByte_zero j
  | succ n ih =>
    rw [List.range_succ, List.foldl_append, List.foldl_cons, List.foldl_nil, laneByte_or, ih, laneByte_shift _ _ _ hj]
    rcases Nat.lt_trichotomy j n with h | h | h
    · simp [h, Nat.ne_of_lt h, Nat.lt_succ_of_lt h]
    · simp [h]
    · simp [Nat.not_lt_of_gt h, Nat.ne_of_gt h, Nat.not_lt.2 h]

/-- bytesToLane puts byte `j` at bits [8j+7:8j] (41_lane_codec.md R44). -/
theorem laneByte_bytesToLane (b : Vector Byte 8) (j : Nat) (hj : j < 8) : laneByte (bytesToLane b) j = nth 0 b j := by
  rw [bytesToLane, laneByte_foldl_range b 8 j hj, if_pos hj]

/-- Byte `j` of lane `i` is state byte 8i + j (10_state.md R10, 20_memory.md R22). -/
theorem laneByte_lane (S : Lanes) (i j : Nat) (hj : j < 8) : laneByte (lane S i) j = readByte S (8 * i + j) := by
  rw [readByte, show (8 * i + j) / 8 = i by omega, show (8 * i + j) % 8 = j by omega]

/-- Settles O14: the one lane XorByte writes, and within it the one byte. -/
theorem xorByteChangesOneByte : Obligations.XorByteChangesOneByte := by
  intro S k b hk
  refine ⟨?_, ?_, fun m hm hmk => ?_, fun i hi hik => ?_⟩
  · rw [lane_xorByte _ _ _ _ (by omega), if_pos rfl]
  · rw [readByte_xorByte _ _ _ _ hk, if_pos rfl]
  · rw [readByte_xorByte _ _ _ _ hm, if_neg hmk]
  · rw [lane_xorByte _ _ _ _ hi, if_neg hik]

/-! ### Absorbing inside one block -/

/-- ABSORB of the payload at hand, while Absorbing, is the fold of AbsorbByte over it (43_sponge_absorb.md R63). -/
theorem exec_absorb_absorbing {s : State} {len : Nat} (hph : s.engine.phase = .absorbing)
    (hlen : s.payload.length = len) :
    exec (.absorb len) s = .next (respond .ok [] (absorbBytes s.engine s.payload) s) := by
  obtain ⟨t, ht⟩ := (exec_completes_iff (.absorb len) s).2 hlen
  rcases exec_cases ht with ⟨h, -, -⟩ | ⟨_, -, -, -, rfl⟩ | ⟨_, -, -, hsq, -⟩ | ⟨_, h, -, -⟩
  · cases h
  · exact ht
  · rw [hph] at hsq
    cases hsq
  · cases h

/-- The bytes after absorbing inside one block (20_memory.md R22, 43_sponge_absorb.md R68): each payload byte is XORed
into the byte of S at its place, and every other byte is as before. -/
theorem readByte_absorbBytes_within {e : Engine} {p : List Byte} (h : e.pos.val + p.length < 168) {k : Nat}
    (hk : k < 200) :
    readByte (absorbBytes e p).lanes k =
      if e.pos.val ≤ k ∧ k < e.pos.val + p.length then readByte e.lanes k ^^^ p.getD (k - e.pos.val) 0
      else readByte e.lanes k := by
  induction p generalizing e with
  | nil => rw [if_neg (by rw [List.length_nil]; omega), absorbBytes_nil]
  | cons b p ih =>
    rw [List.length_cons] at h ⊢
    rcases absorbByte_cases e b with ⟨hlt, hb⟩ | ⟨h167, -⟩
    · rw [absorbBytes_cons, hb, ih (by dsimp only; omega)]
      dsimp only
      rw [readByte_xorByte _ _ _ _ hk]
      rcases Nat.lt_trichotomy k e.pos.val with hlt | heq | hgt
      · rw [if_neg (by omega), if_neg (by omega), if_neg (by omega)]
      · rw [if_neg (by omega), if_pos heq, if_pos (by omega), heq, Nat.sub_self, List.getD_cons_zero]
      · rw [if_neg (show ¬ k = e.pos.val by omega), show k - e.pos.val = k - (e.pos.val + 1) + 1 by omega,
          List.getD_cons_succ]
        exact if_congr (by omega) rfl rfl
    · omega

/-- Settles O28: ABSORB is the fold of AbsorbByte, which stays inside the block. -/
theorem absorbWithinBlockXorsPayload : Obligations.AbsorbWithinBlockXorsPayload := by
  intro len s hph hlen hfit
  subst hlen
  refine ⟨_, exec_absorb_absorbing hph rfl, ?_, fun k hk => ?_⟩
  · rw [respond_engine, absorbBytes_permCount, Nat.div_eq_of_lt hfit, Nat.add_zero]
  · exact readByte_absorbBytes_within hfit hk

/-! ### Squeezing inside one block -/

theorem refill_of_pos_ne {e : Engine} (h : e.pos.val ≠ 0) : refill e = e := by
  rcases refill_cases e with ⟨h0, -⟩ | ⟨-, hr⟩
  · exact absurd h0 h
  · exact hr

/-- Squeezing inside one block writes S by the first byte's KeccakF or not at all (45_sponge_squeeze.md R73). -/
theorem squeezeBytes_lanes_of_block {n : Nat} {e : Engine} (h : e.pos.val + (n + 1) ≤ 168) :
    (squeezeBytes (n + 1) e).2.lanes = (refill e).lanes := by
  rw [squeezeBytes_succ, ← squeezeByte_lanes]
  rcases n with _ | n
  · rfl
  · have hpos := squeezeByte_pos e
    rw [Nat.mod_eq_of_lt (by omega)] at hpos
    exact squeezeBytes_lanes_within (by omega) (by omega)

/-- The bytes squeezed inside one block are the state bytes from POS on, after the KeccakF the first of them may run
(45_sponge_squeeze.md R73). -/
theorem squeezeBytes_getD_of_block {n i : Nat} {e : Engine} (h : e.pos.val + n ≤ 168) (hi : i < n) :
    (squeezeBytes n e).1.getD i 0 = readByte (refill e).lanes (e.pos.val + i) := by
  induction n generalizing e i with
  | zero => omega
  | succ n ih =>
    rw [squeezeBytes_succ]
    rcases i with _ | i
    · rw [List.getD_cons_zero, Nat.add_zero, squeezeByte, refill_pos]
    · have hpos := squeezeByte_pos e
      rw [Nat.mod_eq_of_lt (by omega)] at hpos
      rw [List.getD_cons_succ, ih (by omega) (by omega), refill_of_pos_ne (by omega), squeezeByte_lanes, hpos]
      congr 1
      omega

/-! ### Bus words -/

theorem nth_eightBytes (p : List Byte) (k j : Nat) (hj : j < 8) : nth 0 (eightBytes p k) j = p.getD (k + j) 0 := by
  rw [nth_eq_getElem _ _ _ hj, eightBytes, Vector.getElem_ofFn]

/-- The lane codec places each byte as the packing says (20_memory.md R31). -/
theorem packs_packWords (p : List Byte) : Packs (packWords p) p := by
  refine ⟨(packWords_length p).ge, fun m hm j hj _ => ?_⟩
  rw [packWords_getD p m hm]
  exact (laneByte_bytesToLane _ j hj).trans (nth_eightBytes p (8 * m) j hj)

/-- Byte `j` of word `m` of words that carry a payload is payload byte 8m + j. -/
theorem laneByte_of_packs {ws : List Lane} {p : List Byte} (h : Packs ws p) {m j : Nat} (hj : j < 8)
    (hlt : 8 * m + j < p.length) : laneByte (ws.getD m 0) j = p.getD (8 * m + j) 0 :=
  h.2 m (by omega) j hj hlt

/-- Words that carry a payload unpack to it (20_memory.md R31). -/
theorem unpackWords_of_packs {ws : List Lane} {p : List Byte} (h : Packs ws p) : unpackWords ws p.length = p := by
  apply List.ext_getElem?
  intro k
  rcases Nat.lt_or_ge k p.length with hk | hk
  · have hm : k / 8 < ws.length := by
      have := h.1
      omega
    have hbyte := laneByte_of_packs h (m := k / 8) (j := k % 8) (by omega) (by omega)
    rw [show 8 * (k / 8) + k % 8 = k by omega] at hbyte
    have hword := getElem?_wordBytes ws (k / 8) (k % 8) (by omega)
    rw [show 8 * (k / 8) + k % 8 = k by omega] at hword
    rw [unpackWords, List.getElem?_take_of_lt hk, hword]
    simpa [List.getD_eq_getElem?_getD, hm, hk] using hbyte
  · rw [unpackWords, List.getElem?_eq_none hk, List.getElem?_take_eq_none hk]

/-- Absorbed inside a block from a lane-aligned POS, a whole word is XORed into its lane (20_memory.md R22, R31). -/
theorem lane_absorbBytes_of_packs {e : Engine} {ws : List Lane} {p : List Byte} (hw : Packs ws p)
    (ha : e.pos.val % 8 = 0) (hfit : e.pos.val + p.length < 168) {m : Nat} (hm : 8 * m + 8 ≤ p.length) :
    lane (absorbBytes e p).lanes (e.pos.val / 8 + m) = lane e.lanes (e.pos.val / 8 + m) ^^^ ws.getD m 0 := by
  apply lane_ext_bytes
  intro j hj
  rw [laneByte_xor, laneByte_lane _ _ _ hj, laneByte_lane _ _ _ hj, laneByte_of_packs hw hj (by omega),
    readByte_absorbBytes_within hfit (by omega), if_pos (by omega),
    show 8 * (e.pos.val / 8 + m) + j - e.pos.val = 8 * m + j by omega]

/-- The 21 rate lanes after a squeezed block are words that carry it (20_memory.md R22, R31). -/
theorem packs_squeezed_block {e : Engine} (h0 : e.pos.val = 0) :
    Packs ((List.range 21).map fun i => lane (squeezeBytes 168 e).2.lanes i) (squeezeBytes 168 e).1 := by
  rw [Packs, squeezeBytes_length, squeezeBytes_lanes_of_block (n := 167) (by omega)]
  refine ⟨by simp, fun m hm j hj hlt => ?_⟩
  have hword : ((List.range 21).map fun i => lane (refill e).lanes i).getD m 0 = lane (refill e).lanes m := by
    simp [List.getD_eq_getElem?_getD, show m < 21 by omega]
  rw [hword, squeezeBytes_getD_of_block (by omega) hlt, h0, Nat.zero_add]
  exact laneByte_lane _ _ _ hj

/-- Settles O60: the codec's words carry the payload, and words that carry it are what S takes in and gives out. -/
theorem packedPayloadUnpacks : Obligations.PackedPayloadUnpacks :=
  ⟨fun p => ⟨packs_packWords p, unpackWords_of_packs (packs_packWords p)⟩,
    fun _ _ h => unpackWords_of_packs h,
    fun _ _ _ hw ha hfit _ hm => lane_absorbBytes_of_packs hw ha hfit hm,
    fun _ h0 => packs_squeezed_block h0⟩

/-! ### The invariant at reset -/

/-- Settles O58: every clause is about a field that is empty or 0 at reset. -/
theorem invariantAtReset : Obligations.InvariantAtReset := ⟨rfl, rfl, rfl, rfl⟩

end Sys2Proof.Machine
end

section
/-! SUPPORT and proofs of the family 30_encoding.md, the words: the codec of command words, the fields of response words,
the response every command ends with, and the invariant it keeps. -/
namespace Sys2Proof

/-! ### The command word -/

theorem decode_init {cw : Word} (hr : cwRsv cw = 0) (ho : cwOp cw = 1) (hl : cwLen cw = 0) :
    decode cw = .ok .init := by simp [decode, hr, ho, hl]

theorem decode_absorb {cw : Word} (hr : cwRsv cw = 0) (ho : cwOp cw = 2) :
    decode cw = .ok (.absorb (cwLen cw)) := by simp [decode, hr, ho]

theorem decode_squeeze {cw : Word} (hr : cwRsv cw = 0) (ho : cwOp cw = 3) :
    decode cw = .ok (.squeeze (cwLen cw)) := by simp [decode, hr, ho]

/-- Everything the decoder can answer, with the fields that make it do so (30_encoding.md R36, R39). -/
theorem decode_cases (cw : Word) :
    ((∃ r, decode cw = .error r) ∧
      ((cwOp cw = 0 ∨ 4 ≤ cwOp cw) ∨ cwRsv cw ≠ 0 ∨ (cwOp cw = 1 ∧ cwLen cw ≠ 0))) ∨
    (decode cw = .ok .init ∧ cwRsv cw = 0 ∧ cwOp cw = 1 ∧ cwLen cw = 0) ∨
    (decode cw = .ok (.absorb (cwLen cw)) ∧ cwRsv cw = 0 ∧ cwOp cw = 2) ∨
    (decode cw = .ok (.squeeze (cwLen cw)) ∧ cwRsv cw = 0 ∧ cwOp cw = 3) := by
  by_cases hr : cwRsv cw = 0
  · by_cases h1 : cwOp cw = 1
    · by_cases hl : cwLen cw = 0
      · exact .inr (.inl ⟨decode_init hr h1 hl, hr, h1, hl⟩)
      · exact .inl ⟨⟨.initWithLength, by simp [decode, hr, h1, hl]⟩, .inr (.inr ⟨h1, hl⟩)⟩
    · by_cases h2 : cwOp cw = 2
      · exact .inr (.inr (.inl ⟨decode_absorb hr h2, hr, h2⟩))
      · by_cases h3 : cwOp cw = 3
        · exact .inr (.inr (.inr ⟨decode_squeeze hr h3, hr, h3⟩))
        · exact .inl ⟨⟨.reservedOp, by simp [decode, hr, h1, h2, h3]⟩, .inl (by omega)⟩
  · exact .inl ⟨⟨.reservedBits, by simp [decode, hr]⟩, .inr (.inl hr)⟩

theorem decode_error_iff (cw : Word) : (∃ r, decode cw = .error r) ↔
    (cwOp cw = 0 ∨ 4 ≤ cwOp cw) ∨ cwRsv cw ≠ 0 ∨ (cwOp cw = 1 ∧ cwLen cw ≠ 0) := by
  rcases decode_cases cw with ⟨hd, hf⟩ | ⟨hd, hr, ho, hl⟩ | ⟨hd, hr, ho⟩ | ⟨hd, hr, ho⟩
  · exact iff_of_true hd hf
  · simp [hd, hr, ho, hl]
  · simp [hd, hr, ho]
  · simp [hd, hr, ho]

theorem cwLen_le (cw : Word) : cwLen cw ≤ 16777215 := by
  have := cw.isLt
  rw [cwLen_eq]
  omega

/-- A word with RSV = 0000 is made of its OP and LEN fields (30_encoding.md R33). -/
theorem commandWord_fields {cw : Word} (hr : cwRsv cw = 0) : commandWord (cwOp cw) (cwLen cw) = cw := by
  have hlen := cwLen_le cw
  rw [cwRsv_eq] at hr
  apply BitVec.eq_of_toNat_eq
  rw [commandWord_toNat (by rw [cwOp_eq]; omega) hlen, cwOp_eq, cwLen_eq]
  omega

/-- Settles O3, by the fields of the encoded word. -/
theorem decodeOfEncode : Obligations.DecodeOfEncode := by
  intro i hwf
  cases i with
  | init => decide
  | absorb len =>
    have hlen : len ≤ 16777215 := of_decide_eq_true hwf
    have hd := decode_absorb (cwRsv_commandWord (op := 2) (by omega) hlen) (cwOp_commandWord (by omega) hlen)
    rwa [cwLen_commandWord (by omega) hlen] at hd
  | squeeze len =>
    have hlen : len ≤ 16777215 := of_decide_eq_true hwf
    have hd := decode_squeeze (cwRsv_commandWord (op := 3) (by omega) hlen) (cwOp_commandWord (by omega) hlen)
    rwa [cwLen_commandWord (by omega) hlen] at hd

/-- Settles O4: a legal word is made of its OP and LEN fields, and LEN has 24 bits. -/
theorem encodeOfDecode : Obligations.EncodeOfDecode := by
  intro cw i h
  have hlen := cwLen_le cw
  rcases decode_cases cw with ⟨⟨r, hd⟩, -⟩ | ⟨hd, hr, ho, hl⟩ | ⟨hd, hr, ho⟩ | ⟨hd, hr, ho⟩
  · exact absurd (hd.symm.trans h) nofun
  · obtain rfl := Except.ok.inj (hd.symm.trans h)
    exact ⟨rfl, by simpa only [encode, ho, hl] using commandWord_fields hr⟩
  · obtain rfl := Except.ok.inj (hd.symm.trans h)
    exact ⟨decide_eq_true hlen, by simpa only [encode, ho] using commandWord_fields hr⟩
  · obtain rfl := Except.ok.inj (hd.symm.trans h)
    exact ⟨decide_eq_true hlen, by simpa only [encode, ho] using commandWord_fields hr⟩

/-- Settles O1: the two formulas by the value of a command word, the written words by evaluation. -/
theorem encodingSummary : Obligations.EncodingSummary := by
  refine ⟨by decide, fun L hL => ⟨?_, ?_⟩, by decide⟩
  · exact (commandWord_toNat (op := 2) (by omega) hL).trans (Nat.add_comm _ _)
  · exact (commandWord_toNat (op := 3) (by omega) hL).trans (Nat.add_comm _ _)

/-- Settles O2: nine closed words, by evaluating the decoder. -/
theorem writtenWordsDecode : Obligations.WrittenWordsDecode := by
  unfold Obligations.WrittenWordsDecode
  decide

namespace Machine

/-! ### The response word -/

theorem statusCode_lt (st : Status) : statusCode st < 3 := by cases st <;> decide

theorem phaseCode_lt (ph : Phase) : phaseCode ph < 2 := by cases ph <;> decide

/-- The three fields of a response word do not overlap (30_encoding.md R38). -/
theorem responseWord_toNat (st : Status) (ph : Phase) (pos : Pos) :
    (responseWord st ph pos).toNat = pos.val * 2 ^ 8 + phaseCode ph * 2 ^ 4 + statusCode st := by
  have hst := statusCode_lt st
  have hph := phaseCode_lt ph
  have hpos := pos.isLt
  have hlow : phaseCode ph <<< 4 ||| statusCode st = phaseCode ph <<< 4 + statusCode st :=
    (Nat.shiftLeft_add_eq_or_of_lt (by omega) _).symm
  have hword : pos.val <<< 8 ||| (phaseCode ph <<< 4 + statusCode st) =
      pos.val <<< 8 + (phaseCode ph <<< 4 + statusCode st) :=
    (Nat.shiftLeft_add_eq_or_of_lt (by omega) _).symm
  simp only [responseWord, BitVec.toNat_or, BitVec.toNat_shiftLeft, BitVec.toNat_ofNat]
  rw [Nat.mod_eq_of_lt (a := pos.val) (by omega), Nat.mod_eq_of_lt (a := phaseCode ph) (by omega),
    Nat.mod_eq_of_lt (a := statusCode st) (by omega), Nat.mod_eq_of_lt (a := pos.val <<< 8) (by omega),
    Nat.mod_eq_of_lt (a := phaseCode ph <<< 4) (by omega), Nat.or_assoc, hlow, hword]
  omega

theorem rspStatus_eq (w : Word) : rspStatus w = w.toNat % 4 := by
  simp [rspStatus, BitVec.extractLsb'_toNat]

theorem rspPhase_eq (w : Word) : rspPhase w = w.toNat / 16 % 2 := by
  simp [rspPhase, BitVec.extractLsb'_toNat, Nat.shiftRight_eq_div_pow]

theorem rspPos_eq (w : Word) : rspPos w = w.toNat / 256 % 256 := by
  simp [rspPos, BitVec.extractLsb'_toNat, Nat.shiftRight_eq_div_pow]

/-- The reserved bits are RSP[3:2], RSP[7:5] and RSP[31:16] (30_encoding.md R38). -/
theorem rspReserved_getLsbD (w : Word) {i : Nat} (hi : i < 32) : (rspReserved w).getLsbD i =
    (w.getLsbD i && decide ((2 ≤ i ∧ i < 4) ∨ (5 ≤ i ∧ i < 8) ∨ 16 ≤ i)) := by
  have hmask : ∀ i < 32, (0xFFFF00EC : Word).getLsbD i =
      decide ((2 ≤ i ∧ i < 4) ∨ (5 ≤ i ∧ i < 8) ∨ 16 ≤ i) := by decide
  rw [rspReserved, BitVec.getLsbD_and, hmask i hi]

/-- A field of a word is 0 exactly when its bits are. -/
theorem field_eq_zero_iff (w : Word) (a n : Nat) :
    w.toNat / 2 ^ a % 2 ^ n = 0 ↔ ∀ i, a ≤ i → i < a + n → w.getLsbD i = false := by
  rw [← Nat.shiftRight_eq_div_pow, ← BitVec.extractLsb'_toNat, ← BitVec.toNat_zero (w := n), BitVec.toNat_inj]
  constructor
  · intro h i ha hi
    simpa [BitVec.getLsbD_extractLsb', show i - a < n by omega, show a + (i - a) = i by omega] using
      congrArg (·.getLsbD (i - a)) h
  · intro h
    apply BitVec.eq_of_getLsbD_eq
    intro i hi
    simp [hi, h (a + i) (by omega) (by omega)]

/-- A word has the reserved bits of a response word at 0 exactly when its three reserved fields are 0. -/
theorem rspReserved_eq_zero_iff (w : Word) : rspReserved w = 0 ↔
    w.toNat / 2 ^ 2 % 2 ^ 2 = 0 ∧ w.toNat / 2 ^ 5 % 2 ^ 3 = 0 ∧ w.toNat / 2 ^ 16 % 2 ^ 16 = 0 := by
  rw [field_eq_zero_iff, field_eq_zero_iff, field_eq_zero_iff]
  constructor
  · intro h
    have hclear : ∀ i < 32, (2 ≤ i ∧ i < 4) ∨ (5 ≤ i ∧ i < 8) ∨ 16 ≤ i → w.getLsbD i = false := by
      intro i hi hm
      simpa [h, hm] using rspReserved_getLsbD w hi
    exact ⟨fun i _ _ => hclear i (by omega) (by omega), fun i _ _ => hclear i (by omega) (by omega),
      fun i _ _ => hclear i (by omega) (by omega)⟩
  · rintro ⟨h2, h5, h16⟩
    apply BitVec.eq_of_getLsbD_eq
    intro i hi
    rw [rspReserved_getLsbD w hi]
    by_cases hm : (2 ≤ i ∧ i < 4) ∨ (5 ≤ i ∧ i < 8) ∨ 16 ≤ i
    · have hbit : w.getLsbD i = false := by
        rcases hm with ⟨h, h'⟩ | ⟨h, h'⟩ | h
        · exact h2 i h h'
        · exact h5 i h h'
        · exact h16 i h hi
      simp [hbit]
    · simp [hm]

/-- A word is a response word exactly when its fields say so and its other bits are 0 (30_encoding.md R38). -/
theorem eq_responseWord_iff (w : Word) (st : Status) (ph : Phase) (pos : Pos) : w = responseWord st ph pos ↔
    rspReserved w = 0 ∧ rspStatus w = statusCode st ∧ rspPhase w = phaseCode ph ∧ rspPos w = pos.val := by
  have hst := statusCode_lt st
  have hph := phaseCode_lt ph
  have hpos := pos.isLt
  have hw := w.isLt
  rw [← BitVec.toNat_inj, responseWord_toNat, rspReserved_eq_zero_iff, rspStatus_eq, rspPhase_eq, rspPos_eq]
  omega

/-- Reading a word as a response word succeeds exactly on its fields' codes (93_implementation_defined.md U3 to U5). -/
theorem readResponse_eq_some_iff (w : Word) (st : Status) (ph : Phase) (pos : Pos) :
    readResponse w = some (st, ph, pos) ↔
    rspReserved w = 0 ∧ rspStatus w = statusCode st ∧ rspPhase w = phaseCode ph ∧ rspPos w = pos.val := by
  have hph : (if rspPhase w = 1 then Phase.squeezing else Phase.absorbing) = ph ↔ rspPhase w = phaseCode ph := by
    have hlt : rspPhase w < 2 := by rw [rspPhase_eq]; omega
    cases ph with
    | absorbing => simp [phaseCode]; omega
    | squeezing => simp [phaseCode]
  unfold readResponse
  by_cases hr : rspReserved w = 0
  · by_cases hp : rspPos w < 168
    · have hpos : (⟨rspPos w, hp⟩ : Pos) = pos ↔ rspPos w = pos.val := Fin.ext_iff
      rcases hs : rspStatus w with _ | _ | _ | n <;> cases st <;> simp [hr, hp, hph, hpos, statusCode]
    · have hne : rspPos w ≠ pos.val := fun h => hp (h ▸ pos.isLt)
      simp [hr, hp, hne]
  · exact iff_of_false (by rw [if_pos hr]; exact nofun) fun h => hr h.1

/-- The response words are the words that can be read back, each as what it stands for. -/
theorem readResponse_eq_some_iff_eq (w : Word) (st : Status) (ph : Phase) (pos : Pos) :
    readResponse w = some (st, ph, pos) ↔ w = responseWord st ph pos := by
  rw [readResponse_eq_some_iff, eq_responseWord_iff]

@[simp] theorem readResponse_responseWord (st : Status) (ph : Phase) (pos : Pos) :
    readResponse (responseWord st ph pos) = some (st, ph, pos) := (readResponse_eq_some_iff_eq _ _ _ _).2 rfl

/-- Settles O9: reading succeeds on the response words and on no other word. -/
theorem responseWordsReadBack : Obligations.ResponseWordsReadBack :=
  ⟨readResponse_responseWord, fun w st ph pos => (readResponse_eq_some_iff_eq w st ph pos).1⟩

@[simp] theorem rspStatus_responseWord (st : Status) (ph : Phase) (pos : Pos) :
    rspStatus (responseWord st ph pos) = statusCode st := ((eq_responseWord_iff _ st ph pos).1 rfl).2.1

@[simp] theorem statusCode_eq_zero_iff (st : Status) : statusCode st = 0 ↔ st = .ok := by
  cases st <;> simp [statusCode]

/-! ### What a command answers -/

/-- Every command that completes ends in one response, and an error leaves the engine alone and has no output
(30_encoding.md R37, R38; 60_exceptions.md R84). -/
theorem command_step_responds {s t : State} {c : Command} {rest : List HostEvent}
    (hp : s.pending = .command c :: rest) (h : step s = .next t) :
    ∃ st out e, t = respond st out e (startCommand c rest s) ∧ (st ≠ .ok → e = s.engine ∧ out = []) := by
  obtain ⟨-, ⟨_, -, ht⟩ | ⟨_, -, hx⟩⟩ := command_step_cases hp h
  · exact ⟨_, _, _, ht, fun _ => ⟨rfl, rfl⟩⟩
  · rcases exec_cases hx with ⟨-, -, ht⟩ | ⟨_, -, -, -, ht⟩ | ⟨_, -, -, -, ht⟩ | ⟨_, -, -, ht⟩
    · exact ⟨_, _, _, ht, fun hne => absurd rfl hne⟩
    · exact ⟨_, _, _, ht, fun hne => absurd rfl hne⟩
    · exact ⟨_, _, _, ht, fun _ => ⟨rfl, rfl⟩⟩
    · exact ⟨_, _, _, ht, fun hne => absurd rfl hne⟩

theorem framed_iff (c : Command) : c.framed = true ↔ c.payload.length = inLength c.word := by simp [Command.framed]

/-- Settles O8: the fields of a response word, and the one response of a completing command. -/
theorem responseWordLayout : Obligations.ResponseWordLayout := by
  constructor
  · intro st ph pos
    obtain ⟨hres, hst, hph, hpos⟩ := (eq_responseWord_iff _ st ph pos).1 rfl
    exact ⟨responseWord_toNat st ph pos, hst, Nat.ne_of_lt (statusCode_lt st), hph, hpos, hres⟩
  · intro s c rest hp hf
    obtain ⟨t, ht⟩ := command_step_completes hp ((framed_iff c).1 hf)
    obtain ⟨st, out, e, rfl, herr⟩ := command_step_responds hp ht
    exact ⟨_, st, out, ht, rfl, fun hne => (herr hne).1⟩

/-- Settles O5: the decoder by its fields, and the step on an illegal word. -/
theorem illegalWordsExactly : Obligations.IllegalWordsExactly := by
  refine ⟨decode_error_iff, fun cw hr => ⟨decode_init hr, decode_absorb hr, decode_squeeze hr⟩, ?_⟩
  intro s c rest r hp hf hd
  rw [step_command_illegal hp hd]
  exact withPayload_of_eq _ ((framed_iff c).1 hf)

/-- Settles O6: the first step already refuses, and a run stops there. -/
theorem misframedCommandRefused : Obligations.MisframedCommandRefused := by
  intro s c rest hp
  refine ⟨fun hne => ?_, command_step_completes hp⟩
  have hstep := command_step_refused hp hne
  exact ⟨hstep, fun k => runSteps_refused k hstep⟩

/-- Settles O7: what each decoded command, and an illegal word, takes in and gives out. -/
theorem payloadLengths : Obligations.PayloadLengths := by
  intro s c rest hp hf
  obtain ⟨t, ht⟩ := command_step_completes hp ((framed_iff c).1 hf)
  obtain ⟨hlen, ⟨r, hd, rfl⟩ | ⟨i, hd, hx⟩⟩ := command_step_cases hp ht
  · exact ⟨_, _, _, ht, rfl, rfl, by simp [hd], by simp [hd], by simp [hd], fun _ _ => ⟨hlen, rfl⟩⟩
  · rcases exec_cases hx with ⟨rfl, hpay, rfl⟩ | ⟨len, rfl, hpay, -, rfl⟩ | ⟨len, rfl, hpay, -, rfl⟩ |
      ⟨len, rfl, hpay, rfl⟩
    · exact ⟨_, _, _, ht, rfl, rfl, fun _ => ⟨List.length_eq_zero_iff.1 hpay, rfl⟩, by simp [hd], by simp [hd],
        by simp [hd]⟩
    · refine ⟨_, _, _, ht, rfl, rfl, by simp [hd], fun L hL => ?_, by simp [hd], by simp [hd]⟩
      obtain rfl : len = L := by simpa [hd] using hL
      exact ⟨hpay, rfl, by simp⟩
    · refine ⟨_, _, _, ht, rfl, rfl, by simp [hd], fun L hL => ?_, by simp [hd], by simp [hd]⟩
      obtain rfl : len = L := by simpa [hd] using hL
      exact ⟨hpay, rfl, fun _ => rfl⟩
    · refine ⟨_, _, _, ht, rfl, rfl, by simp [hd], by simp [hd], fun L hL => ?_, by simp [hd]⟩
      obtain rfl : len = L := by simpa [hd] using hL
      exact ⟨List.length_eq_zero_iff.1 hpay, by simp⟩

/-! ### The invariant -/

/-- A response without output, or with status OK, is one this hardware can give. -/
theorem replyWellFormed_response {st : Status} {out : List Byte} (ph : Phase) (pos : Pos)
    (h : st ≠ .ok → out = []) : replyWellFormed (.response (responseWord st ph pos) out) = true := by
  cases st <;> simp_all [replyWellFormed]

/-- Settles O57: a step adds nothing, one well-formed response, or one abandoned command. -/
theorem stepKeepsInvariant : Obligations.StepKeepsInvariant := by
  rintro s t ⟨hpay, hreplies, hindex, hdraws⟩ h
  rcases step_cases h with ⟨-, rfl⟩ | ⟨c, rest, hp, -, -⟩ | ⟨rest, -, rfl⟩ | ⟨c, rest, -, rfl⟩
  · exact ⟨hpay, hreplies, hindex, hdraws⟩
  · obtain ⟨st, out, e, rfl, herr⟩ := command_step_responds hp h
    have hwf := replyWellFormed_response e.phase e.pos fun hne => (herr hne).2
    exact ⟨rfl, by simp [hreplies, hwf], by simp [hindex], by simp [hdraws, isAbandoned]⟩
  · exact ⟨hpay, hreplies, hindex, hdraws⟩
  · exact ⟨hpay, by simp [hreplies, replyWellFormed], by simp [hindex], by simp [hdraws, isAbandoned]⟩

end Machine
end Sys2Proof
end

section
/-! SUPPORT and proofs of the family 30_encoding.md, the pseudo-instructions: runs of ABSORB and of SQUEEZE commands, the
one-shot SHAKE128 against the session that streams it, and the expansions of R42. -/
namespace Sys2Proof.Machine

/-! ### Runs and their output -/

/-- `k` steps take `s` to `t`, and what the host sees on the way outputs `out`. -/
def RunsTo (k : Nat) (s t : State) (out : List Byte) : Prop :=
  runSteps k s = .next t ∧ ∃ r, t.replies = s.replies ++ r ∧ outputStream r = out

@[simp] theorem outputStream_append (r₁ r₂ : List Reply) :
    outputStream (r₁ ++ r₂) = outputStream r₁ ++ outputStream r₂ := List.flatMap_append

theorem RunsTo.refl (s : State) : RunsTo 0 s s [] := ⟨rfl, [], (List.append_nil _).symm, rfl⟩

theorem RunsTo.trans {j k : Nat} {s t u : State} {o₁ o₂ : List Byte} (h₁ : RunsTo j s t o₁) (h₂ : RunsTo k t u o₂) :
    RunsTo (j + k) s u (o₁ ++ o₂) := by
  obtain ⟨hs, r₁, hr₁, rfl⟩ := h₁
  obtain ⟨ht, r₂, hr₂, rfl⟩ := h₂
  exact ⟨(runSteps_add k hs).trans ht, r₁ ++ r₂, by rw [hr₂, hr₁, List.append_assoc], outputStream_append r₁ r₂⟩

/-- One step that ends in a response is a run with that response's output. -/
theorem RunsTo.of_respond {s : State} {st : Status} {out : List Byte} {e : Engine} {c : Command}
    {rest : List HostEvent} (h : step s = .next (respond st out e (startCommand c rest s))) :
    RunsTo 1 s (respond st out e (startCommand c rest s)) out :=
  ⟨runSteps_succ 0 h, [_], rfl, List.append_nil out⟩

/-! ### The three commands, run -/

theorem runsTo_init {s : State} {rest : List HostEvent} (hp : s.pending = .command initCommand :: rest) :
    ∃ t, RunsTo 1 s t [] ∧ t.pending = rest ∧ t.engine = clearEngine s.engine := by
  have hstep : step s = .next (respond .ok [] (clearEngine s.engine) (startCommand initCommand rest s)) :=
    step_command_ok hp (decodeOfEncode .init rfl)
  exact ⟨_, .of_respond hstep, rfl, rfl⟩

theorem runsTo_absorb {s : State} {p : List Byte} {rest : List HostEvent} (hph : s.engine.phase = .absorbing)
    (hlen : p.length ≤ Config.maxLen) (hp : s.pending = .command (absorbCommand p) :: rest) :
    ∃ t, RunsTo 1 s t [] ∧ t.pending = rest ∧ t.engine = absorbBytes s.engine p := by
  have hstep : step s = .next (respond .ok [] (absorbBytes s.engine p) (startCommand (absorbCommand p) rest s)) :=
    (step_command_ok hp (decodeOfEncode (.absorb p.length) (decide_eq_true hlen))).trans
      (exec_absorb_absorbing hph rfl)
  exact ⟨_, .of_respond hstep, rfl, rfl⟩

theorem runsTo_squeeze {s : State} {n : Nat} {rest : List HostEvent} (hlen : n ≤ Config.maxLen)
    (hp : s.pending = .command (squeezeCommand n) :: rest) :
    ∃ t, RunsTo 1 s t (squeezeOutput n s.engine).1 ∧ t.pending = rest ∧ t.engine = (squeezeOutput n s.engine).2 := by
  have hstep : step s = .next (respond .ok (squeezeOutput n s.engine).1 (squeezeOutput n s.engine).2
      (startCommand (squeezeCommand n) rest s)) :=
    step_command_ok hp (decodeOfEncode (.squeeze n) (decide_eq_true hlen))
  exact ⟨_, .of_respond hstep, rfl, rfl⟩

/-- ABSORB commands in a row absorb their payloads in a row (43_sponge_absorb.md R66). -/
theorem runsTo_absorbs {s : State} {chunks : List (List Byte)} {rest : List HostEvent}
    (hph : s.engine.phase = .absorbing) (hlen : ∀ p ∈ chunks, p.length ≤ Config.maxLen)
    (hp : s.pending = commandEvents (chunks.map absorbCommand) ++ rest) :
    ∃ t, RunsTo chunks.length s t [] ∧ t.pending = rest ∧ t.engine = absorbBytes s.engine chunks.flatten := by
  induction chunks generalizing s with
  | nil => exact ⟨s, .refl s, hp, rfl⟩
  | cons p chunks ih =>
    obtain ⟨hlen₁, hlen₂⟩ := List.forall_mem_cons.1 hlen
    obtain ⟨u, hrun, hpend, heng⟩ := runsTo_absorb hph hlen₁ hp
    obtain ⟨t, hrun', hpend', heng'⟩ := ih (by rw [heng, absorbBytes_phase, hph]) hlen₂ hpend
    refine ⟨t, ?_, hpend', ?_⟩
    · rw [List.length_cons, Nat.add_comm]
      exact hrun.trans hrun'
    · rw [heng', heng, List.flatten_cons, absorbBytes_append]

/-- SQUEEZE m and then SQUEEZE n is SQUEEZE m + n (45_sponge_squeeze.md R76): only the first that delivers finalizes. -/
theorem squeezeOutput_add (m n : Nat) (e : Engine) : squeezeOutput (m + n) e =
    ((squeezeOutput m e).1 ++ (squeezeOutput n (squeezeOutput m e).2).1,
      (squeezeOutput n (squeezeOutput m e).2).2) := by
  rcases Nat.eq_zero_or_pos m with rfl | hm
  · rw [Nat.zero_add]; rfl
  rcases Nat.eq_zero_or_pos n with rfl | hn
  · simp
  have hfin : finalizeIfAbsorbing (squeezeOutput m e).2 = (squeezeOutput m e).2 :=
    finalizeIfAbsorbing_squeezing (by rw [squeezeOutput_phase, phaseAfter, if_neg hm.ne'])
  rw [squeezeOutput_pos hn.ne', hfin, squeezeOutput_pos hm.ne', squeezeOutput_pos (by omega), squeezeBytes_add]

/-- SQUEEZE commands in a row output and leave what one SQUEEZE of their total does (45_sponge_squeeze.md R76). -/
theorem runsTo_squeezes {s : State} {lens : List Nat} {rest : List HostEvent} (hlen : ∀ n ∈ lens, n ≤ Config.maxLen)
    (hp : s.pending = commandEvents (lens.map squeezeCommand) ++ rest) :
    ∃ t, RunsTo lens.length s t (squeezeOutput lens.sum s.engine).1 ∧ t.pending = rest ∧
      t.engine = (squeezeOutput lens.sum s.engine).2 := by
  induction lens generalizing s with
  | nil => exact ⟨s, .refl s, hp, rfl⟩
  | cons n lens ih =>
    obtain ⟨hlen₁, hlen₂⟩ := List.forall_mem_cons.1 hlen
    obtain ⟨u, hrun, hpend, heng⟩ := runsTo_squeeze hlen₁ hp
    obtain ⟨t, hrun', hpend', heng'⟩ := ih hlen₂ hpend
    rw [heng] at hrun' heng'
    rw [List.length_cons, Nat.add_comm, List.sum_cons, squeezeOutput_add]
    exact ⟨t, hrun.trans hrun', hpend', heng'⟩

/-! ### Absorbing the padding -/

/-- Finalize in bytes: 0x1F at POS and 0x80 at byte 167 (44_sponge_finalize.md R69). -/
theorem finalize_lanes (e : Engine) : (finalize e).lanes = xorByte (xorByte e.lanes e.pos.val 0x1F) 167 0x80 := rfl

theorem xorByte_xorByte (S : Lanes) (k : Nat) (a b : Byte) :
    xorByte (xorByte S k a) k b = xorByte S k (a ^^^ b) := by
  apply lanes_ext_bytes
  intro m hm
  simp only [readByte_xorByte _ _ _ _ hm]
  split
  · exact BitVec.xor_assoc _ _ _
  · rfl

/-- Absorbing zero bytes inside one block writes no lane. -/
theorem absorbBytes_zeros_lanes {e : Engine} {n : Nat} (h : e.pos.val + n < 168) :
    (absorbBytes e (List.replicate n 0)).lanes = e.lanes := by
  apply lanes_ext_bytes
  intro k hk
  rw [readByte_absorbBytes_within (by rwa [List.length_replicate]) hk]
  split
  · next hin =>
    rw [List.length_replicate] at hin
    simp [List.getD_eq_getElem?_getD, show k - e.pos.val < n by omega]
  · rfl

/-- The last byte of a block, absorbed, runs KeccakF and leaves POS = 0 (43_sponge_absorb.md R62). -/
theorem absorbByte_last {e : Engine} (h : e.pos.val = 167) (b : Byte) : absorbByte e b =
    { e with lanes := keccakF (xorByte e.lanes 167 b), pos := 0, permCount := e.permCount + 1 } := by
  rcases absorbByte_cases e b with ⟨hlt, -⟩ | ⟨-, hb⟩
  · omega
  · exact hb

theorem absorbByte_within {e : Engine} (h : e.pos.val + 1 < 168) (b : Byte) : absorbByte e b =
    { e with lanes := xorByte e.lanes e.pos.val b, pos := ⟨e.pos.val + 1, h⟩ } := by
  rcases absorbByte_cases e b with ⟨_, hb⟩ | ⟨h167, -⟩
  · exact hb
  · omega

/-- Absorbing the padding is Finalize and then KeccakF (44_sponge_finalize.md R72). -/
theorem absorbBytes_padding {e : Engine} {n : Nat} (h : e.pos.val = n % 168) :
    (absorbBytes e (paddingBytes n)).lanes = keccakF (finalize e).lanes := by
  have hpos := e.pos.isLt
  rw [finalize_lanes]
  by_cases hlast : n % 168 = 167
  · rw [paddingBytes, if_pos hlast, absorbBytes_cons, absorbBytes_nil, absorbByte_last (h.trans hlast), h, hlast,
      xorByte_xorByte]
    rfl
  · have hlt : e.pos.val + 1 < 168 := by omega
    have hzeros : e.pos.val + 1 + (166 - n % 168) = 167 := by omega
    rw [paddingBytes, if_neg hlast, absorbBytes_cons, absorbByte_within hlt, absorbBytes_append, absorbBytes_cons,
      absorbBytes_nil, absorbByte_last, absorbBytes_zeros_lanes]
    · exact hzeros.trans_lt (by decide)
    · rw [absorbBytes_pos, List.length_replicate]
      exact congrArg (· % 168) hzeros

/-! ### Absorbing whole blocks -/

/-- The bytes after a whole block is XORed in (43_sponge_absorb.md R67). -/
theorem readByte_xorBlock (S : Lanes) (p : List Byte) {k : Nat} (hk : k < 200) :
    readByte (xorBlock S p) k = if k < 168 then readByte S k ^^^ p.getD k 0 else readByte S k := by
  have hj : k % 8 < 8 := by omega
  have hlane : lane (xorBlock S p) (k / 8) = if k / 8 < 21 then
      lane S (k / 8) ^^^ bytesToLane (eightBytes p (8 * (k / 8))) else lane S (k / 8) :=
    lane_tabulate _ _ (by omega)
  rw [readByte, hlane]
  by_cases h : k < 168
  · rw [if_pos (by omega), if_pos h, laneByte_xor, laneByte_bytesToLane _ _ hj, nth_eightBytes _ _ _ hj,
      show 8 * (k / 8) + k % 8 = k by omega, readByte]
  · rw [if_neg (by omega), if_neg h, readByte]

/-- A whole block absorbed byte by byte from POS = 0 is its lanes XORed in, then KeccakF (43_sponge_absorb.md R67). -/
theorem absorbBytes_block {e : Engine} {p : List Byte} (h0 : e.pos = 0) (hlen : 168 ≤ p.length) :
    absorbBytes e (p.take 168) = permute { e with lanes := xorBlock e.lanes p } := by
  have hp0 : e.pos.val = 0 := congrArg Fin.val h0
  have hl167 : (p.take 167).length = 167 := by rw [List.length_take]; omega
  have hsplit : p.take 168 = p.take 167 ++ [p.getD 167 0] := by
    rw [List.take_add_one, List.getD_eq_getElem?_getD, List.getElem?_eq_getElem (by omega)]
    rfl
  have hpos : (absorbBytes e (p.take 167)).pos.val = 167 := by rw [absorbBytes_pos, hp0, hl167]
  have hcount : (absorbBytes e (p.take 167)).permCount = e.permCount := by
    rw [absorbBytes_permCount, hp0, hl167]; rfl
  have hlanes : xorByte (absorbBytes e (p.take 167)).lanes 167 (p.getD 167 0) = xorBlock e.lanes p := by
    apply lanes_ext_bytes
    intro k hk
    rw [readByte_xorByte _ _ _ _ hk, readByte_absorbBytes_within (by omega) hk, readByte_xorBlock _ _ hk, hp0, hl167]
    rcases Nat.lt_trichotomy k 167 with h | h | h
    · rw [if_neg (by omega), if_pos (by omega), if_pos (by omega), Nat.sub_zero, List.getD_eq_getElem?_getD,
        List.getElem?_take_of_lt h, ← List.getD_eq_getElem?_getD]
    · rw [if_pos h, if_neg (by omega), if_pos (by omega), h]
    · rw [if_neg (by omega), if_neg (by omega), if_neg (by omega)]
  rw [hsplit, absorbBytes_append, absorbBytes_cons, absorbBytes_nil, absorbByte_last hpos, hlanes, hcount,
    absorbBytes_phase, ← h0]
  rfl

/-- The one-shot absorption of whole blocks is the byte-wise one (44_sponge_finalize.md R72). -/
theorem absorbBlocks_eq_absorbBytes {n : Nat} {e : Engine} {p : List Byte} (h0 : e.pos = 0)
    (hlen : p.length = 168 * n) : absorbBlocks n p e.lanes = (absorbBytes e p).lanes := by
  induction n generalizing e p with
  | zero =>
    obtain rfl := List.length_eq_zero_iff.1 hlen
    rfl
  | succ n ih =>
    have hblock := absorbBytes_block (p := p) h0 (by omega)
    have htail : absorbBytes e p =
        absorbBytes (permute { e with lanes := xorBlock e.lanes p }) (p.drop 168) := by
      rw [← hblock, ← absorbBytes_append, List.take_append_drop]
    have hrest : (p.drop 168).length = 168 * n := by rw [List.length_drop]; omega
    rw [absorbBlocks, htail, ← ih (e := permute { e with lanes := xorBlock e.lanes p }) h0 hrest, permute_lanes]

theorem paddingBytes_length (n : Nat) : (paddingBytes n).length = 168 - n % 168 := by
  unfold paddingBytes
  split
  · next h => rw [h]; rfl
  · simp
    omega

/-- The padded message in whole blocks from the zero state gives the state of the session that absorbed and finalized
it, after its first KeccakF (44_sponge_finalize.md R72). -/
theorem absorbBlocks_padded (e : Engine) (msg : List Byte) :
    absorbBlocks ((msg ++ paddingBytes msg.length).length / 168) (msg ++ paddingBytes msg.length)
      (Vector.replicate 25 0) = keccakF (finalize (absorbBytes (clearEngine e) msg)).lanes := by
  have hpos : (absorbBytes (clearEngine e) msg).pos.val = msg.length % 168 := by
    rw [absorbBytes_pos, clearEngine_pos, Fin.val_zero, Nat.zero_add]
  have hlen : (msg ++ paddingBytes msg.length).length =
      168 * ((msg ++ paddingBytes msg.length).length / 168) := by
    rw [List.length_append, paddingBytes_length]
    omega
  rw [← absorbBytes_padding hpos, ← absorbBytes_append]
  exact absorbBlocks_eq_absorbBytes (e := clearEngine e) rfl hlen

/-! ### The output stream -/

theorem keccakFIter_zero (S : Lanes) : keccakFIter 0 S = S := rfl

theorem keccakFIter_succ (m : Nat) (S : Lanes) : keccakFIter (m + 1) S = keccakF (keccakFIter m S) := rfl

theorem keccakFIter_keccakF (m : Nat) (S : Lanes) : keccakFIter m (keccakF S) = keccakFIter (m + 1) S := by
  induction m with
  | zero => rw [keccakFIter_succ, keccakFIter_zero, keccakFIter_zero]
  | succ m ih => rw [keccakFIter_succ, ih, ← keccakFIter_succ]

/-- The stream from the next block on is the stream of the next state (45_sponge_squeeze.md R78). -/
theorem streamByte_keccakF (P : Lanes) (k : Nat) : streamByte (keccakF P) k = streamByte P (168 + k) := by
  rw [streamByte, streamByte, keccakFIter_keccakF, show (168 + k) / 168 = k / 168 + 1 by omega,
    show (168 + k) % 168 = k % 168 by omega]

theorem refill_of_pos_eq_zero {e : Engine} (h : e.pos.val = 0) : refill e = permute e := by
  rcases refill_cases e with ⟨-, hr⟩ | ⟨hne, -⟩
  · exact hr
  · exact absurd h hne

/-- One block of output bytes, squeezed from POS = 0 (45_sponge_squeeze.md R78). -/
theorem squeezeBytes_eq_streamByte_of_block {n : Nat} {e : Engine} (h0 : e.pos.val = 0) (hn : n ≤ 168) :
    (squeezeBytes n e).1 = (List.range n).map (streamByte e.lanes) := by
  apply List.ext_getElem (by simp)
  intro i hi _
  rw [squeezeBytes_length] at hi
  have hbyte := squeezeBytes_getD_of_block (e := e) (by omega) hi
  rw [refill_of_pos_eq_zero h0, h0, Nat.zero_add] at hbyte
  rw [List.getElem_map, List.getElem_range, streamByte, Nat.div_eq_of_lt (by omega), Nat.mod_eq_of_lt (by omega),
    keccakFIter_succ, keccakFIter_zero]
  simpa [List.getD_eq_getElem?_getD, hi] using hbyte

/-- Bytes squeezed from POS = 0 on are the output stream, block after block (45_sponge_squeeze.md R78). -/
theorem squeezeBytes_eq_streamByte (n : Nat) {e : Engine} (h0 : e.pos.val = 0) :
    (squeezeBytes n e).1 = (List.range n).map (streamByte e.lanes) := by
  induction n using Nat.strong_induction_on generalizing e with
  | _ n ih =>
    rcases Nat.le_total n 168 with hn | hn
    · exact squeezeBytes_eq_streamByte_of_block h0 hn
    · obtain ⟨m, rfl⟩ := Nat.exists_eq_add_of_le hn
      have hpos : (squeezeBytes 168 e).2.pos.val = 0 := by rw [squeezeBytes_pos, h0]
      have hlanes : (squeezeBytes 168 e).2.lanes = keccakF e.lanes := by
        rw [squeezeBytes_lanes_of_block (by omega), refill_of_pos_eq_zero h0, permute_lanes]
      have htail : (List.range m).map (streamByte (keccakF e.lanes)) =
          (List.range m).map (streamByte e.lanes ∘ (168 + ·)) :=
        List.map_congr_left fun k _ => streamByte_keccakF e.lanes k
      rw [squeezeBytes_add, squeezeBytes_eq_streamByte_of_block h0 (Nat.le_refl _), ih m (by omega) hpos, hlanes,
        List.range_add, List.map_append, List.map_map, htail]

/-! ### A session -/

/-- The one-shot SHAKE128 is the output stream of the state that absorbing and finalizing the message leaves
(44_sponge_finalize.md R72, 45_sponge_squeeze.md R78). -/
theorem squeezeOutput_absorbBytes_eq_shake128 (e : Engine) (msg : List Byte) (n : Nat) :
    (squeezeOutput n (absorbBytes (clearEngine e) msg)).1 = shake128 msg n := by
  rcases Nat.eq_zero_or_pos n with rfl | hn
  · rfl
  have hph : (absorbBytes (clearEngine e) msg).phase = .absorbing := by rw [absorbBytes_phase, clearEngine_phase]
  rw [squeezeOutput_pos hn.ne', finalizeIfAbsorbing_absorbing hph, squeezeBytes_eq_streamByte n rfl, shake128]
  rw [absorbBlocks_padded e msg]
  refine List.map_congr_left fun k _ => ?_
  rw [streamByte, keccakFIter_keccakF]

/-- A session of any cutting outputs the one-shot SHAKE128 of its message (46_xof_facade.md R81). -/
theorem runsTo_session {s : State} {chunks : List (List Byte)} {lens : List Nat}
    (hchunks : ∀ p ∈ chunks, p.length ≤ Config.maxLen) (hlens : ∀ n ∈ lens, n ≤ Config.maxLen)
    (hp : s.pending = commandEvents (initCommand :: (chunks.map absorbCommand ++ lens.map squeezeCommand))) :
    ∃ t, RunsTo (1 + chunks.length + lens.length) s t (shake128 chunks.flatten lens.sum) := by
  have hp' : s.pending = .command initCommand ::
      (commandEvents (chunks.map absorbCommand) ++ (commandEvents (lens.map squeezeCommand) ++ [])) := by
    simp [hp, commandEvents]
  obtain ⟨t₁, hrun₁, hpend₁, heng₁⟩ := runsTo_init hp'
  obtain ⟨t₂, hrun₂, hpend₂, heng₂⟩ := runsTo_absorbs (by rw [heng₁, clearEngine_phase]) hchunks hpend₁
  obtain ⟨t₃, hrun₃, -, -⟩ := runsTo_squeezes hlens hpend₂
  rw [heng₂, heng₁, squeezeOutput_absorbBytes_eq_shake128] at hrun₃
  exact ⟨t₃, (hrun₁.trans hrun₂).trans hrun₃⟩

/-! ### Pieces -/

theorem bytePieces_length_le (fuel : Nat) (p : List Byte) : ∀ q ∈ bytePieces fuel p, q.length ≤ Config.maxLen := by
  induction fuel generalizing p with
  | zero => simp [bytePieces]
  | succ fuel ih =>
    unfold bytePieces
    split
    · simp
    · exact List.forall_mem_cons.2 ⟨by rw [List.length_take]; omega, ih _⟩

theorem bytePieces_flatten {fuel : Nat} {p : List Byte} (h : p.length ≤ fuel) : (bytePieces fuel p).flatten = p := by
  induction fuel generalizing p with
  | zero => simp [bytePieces, List.length_eq_zero_iff.1 (Nat.le_zero.1 h)]
  | succ fuel ih =>
    unfold bytePieces
    split
    · next he => simp [List.isEmpty_iff.1 he]
    · have hmax : 0 < Config.maxLen := by decide
      rw [List.flatten_cons, ih (by rw [List.length_drop]; omega), List.take_append_drop]

theorem lengthPieces_le (fuel n : Nat) : ∀ m ∈ lengthPieces fuel n, m ≤ Config.maxLen := by
  induction fuel generalizing n with
  | zero => simp [lengthPieces]
  | succ fuel ih =>
    unfold lengthPieces
    split
    · simp
    · exact List.forall_mem_cons.2 ⟨Nat.min_le_right _ _, ih _⟩

theorem lengthPieces_sum {fuel n : Nat} (h : n ≤ fuel) : (lengthPieces fuel n).sum = n := by
  induction fuel generalizing n with
  | zero => simp [lengthPieces, Nat.le_zero.1 h]
  | succ fuel ih =>
    unfold lengthPieces
    split
    · next hn => simp [hn]
    · have hmax : 0 < Config.maxLen := by decide
      rw [List.sum_cons, ih (by omega)]
      omega

/-! ### The expansions -/

/-- The pieces of an ABSORB (30_encoding.md R42): one if a single command carries the payload. -/
def absorbPieces (p : List Byte) : List (List Byte) :=
  if p.length ≤ Config.maxLen then [p] else bytePieces p.length p

/-- The pieces of a SQUEEZE (30_encoding.md R42): one if a single command carries the length. -/
def squeezePieces (n : Nat) : List Nat := if n ≤ Config.maxLen then [n] else lengthPieces n n

theorem expandLine_absorb (p : List Byte) : expandLine (.absorb p) = (absorbPieces p).map absorbCommand := by
  rw [expandLine, absorbPieces]
  split <;> rfl

theorem expandLine_squeeze (n : Nat) : expandLine (.squeeze n) = (squeezePieces n).map squeezeCommand := by
  rw [expandLine, squeezePieces]
  split <;> rfl

theorem absorbPieces_length_le (p : List Byte) : ∀ q ∈ absorbPieces p, q.length ≤ Config.maxLen := by
  unfold absorbPieces
  split
  · next h => exact fun q hq => List.mem_singleton.1 hq ▸ h
  · exact bytePieces_length_le _ _

theorem squeezePieces_le (n : Nat) : ∀ m ∈ squeezePieces n, m ≤ Config.maxLen := by
  unfold squeezePieces
  split
  · next h => exact fun m hm => List.mem_singleton.1 hm ▸ h
  · exact lengthPieces_le _ _

theorem absorbPieces_flatten (p : List Byte) : (absorbPieces p).flatten = p := by
  unfold absorbPieces
  split
  · simp
  · exact bytePieces_flatten (Nat.le_refl _)

theorem squeezePieces_sum (n : Nat) : (squeezePieces n).sum = n := by
  unfold squeezePieces
  split
  · simp
  · exact lengthPieces_sum (Nat.le_refl _)

/-- The command of a well-formed instruction with a payload of its length is correctly framed and legal. -/
theorem framed_of_wellFormed {i : Instr} {c : Command} (hwf : i.wellFormed = true) (hw : c.word = encode i)
    (hlen : c.payload.length = instrInLength i) : c.framed = true ∧ ∃ i, decode c.word = .ok i := by
  have hd : decode c.word = .ok i := hw ▸ decodeOfEncode i hwf
  exact ⟨(framed_iff c).2 (hlen.trans (inLength_of_decode hd).symm), i, hd⟩

theorem framed_absorbCommand {p : List Byte} (h : p.length ≤ Config.maxLen) :
    (absorbCommand p).framed = true ∧ ∃ i, decode (absorbCommand p).word = .ok i :=
  framed_of_wellFormed (i := .absorb p.length) (decide_eq_true h) rfl rfl

theorem framed_squeezeCommand {n : Nat} (h : n ≤ Config.maxLen) :
    (squeezeCommand n).framed = true ∧ ∃ i, decode (squeezeCommand n).word = .ok i :=
  framed_of_wellFormed (i := .squeeze n) (decide_eq_true h) rfl rfl

theorem framed_initCommand : initCommand.framed = true ∧ ∃ i, decode initCommand.word = .ok i :=
  framed_of_wellFormed (i := .init) rfl rfl rfl

theorem framed_expandLine {l : AsmLine} (hl : ∀ cw p, l ≠ .word cw p) :
    ∀ c ∈ expandLine l, c.framed = true ∧ ∃ i, decode c.word = .ok i := by
  cases l with
  | init => exact List.forall_mem_singleton.2 framed_initCommand
  | absorb p =>
    rw [expandLine_absorb]
    exact List.forall_mem_map.2 fun q hq => framed_absorbCommand (absorbPieces_length_le p q hq)
  | squeeze n =>
    rw [expandLine_squeeze]
    exact List.forall_mem_map.2 fun m hm => framed_squeezeCommand (squeezePieces_le n m hm)
  | word cw p => exact absurd rfl (hl cw p)
  | shake128 msg n =>
    refine List.forall_mem_cons.2 ⟨framed_initCommand, List.forall_mem_append.2 ⟨?_, ?_⟩⟩
    · exact List.forall_mem_map.2 fun q hq => framed_absorbCommand (bytePieces_length_le _ _ q hq)
    · exact List.forall_mem_map.2 fun m hm => framed_squeezeCommand (lengthPieces_le _ _ m hm)

/-- Settles O45: the pieces make up the unsplit call, and runs of ABSORB and of SQUEEZE commands add up. -/
theorem pseudoInstructionsExpandExactly : Obligations.PseudoInstructionsExpandExactly := by
  refine ⟨fun l hl => framed_expandLine hl, fun s msg n hp => ?_, fun s p hph hp => ?_, fun s n hp => ?_⟩
  · obtain ⟨t, hrun, r, hr, hout⟩ := runsTo_session (bytePieces_length_le _ _) (lengthPieces_le _ _) hp
    rw [bytePieces_flatten (Nat.le_refl _), lengthPieces_sum (Nat.le_refl _)] at hout
    refine ⟨t, r, ?_, hr, hout⟩
    rw [expandLine, List.length_cons, List.length_append, List.length_map, List.length_map, Nat.add_comm,
      ← Nat.add_assoc]
    exact hrun
  · rw [expandLine_absorb] at hp ⊢
    obtain ⟨t, ⟨hrun, -⟩, -, heng⟩ :=
      runsTo_absorbs (rest := []) hph (absorbPieces_length_le p) (by rw [hp, List.append_nil])
    rw [absorbPieces_flatten] at heng
    exact ⟨t, by rw [List.length_map]; exact hrun, heng⟩
  · rw [expandLine_squeeze] at hp ⊢
    obtain ⟨t, ⟨hrun, r, hr, hout⟩, -, heng⟩ :=
      runsTo_squeezes (rest := []) (squeezePieces_le n) (by rw [hp, List.append_nil])
    rw [squeezePieces_sum] at hout heng
    exact ⟨t, r, by rw [List.length_map]; exact hrun, hr, Prod.ext hout heng⟩

end Sys2Proof.Machine
end


section
/-! SUPPORT and proofs of the family 41_lane_codec.md: the bytes of both directions of the codec, and its ports. -/
namespace Sys2Proof.Machine

/-! ### The two directions -/

/-- laneToBytes takes byte `j` from bits [8j+7:8j] (41_lane_codec.md R45). -/
@[simp] theorem getElem_laneToBytes (v : Lane) (j : Nat) (hj : j < 8) : (laneToBytes v)[j] = laneByte v j :=
  Vector.getElem_ofFn hj

/-- `laneByte_bytesToLane` with the byte read in range. -/
theorem laneByte_bytesToLane_eq_getElem (b : Vector Byte 8) (j : Nat) (hj : j < 8) :
    laneByte (bytesToLane b) j = b[j] := (laneByte_bytesToLane b j hj).trans (nth_eq_getElem _ _ _ hj)

theorem bytesToLane_laneToBytes (v : Lane) : bytesToLane (laneToBytes v) = v :=
  lane_ext_bytes fun j hj => by
    rw [laneByte_bytesToLane_eq_getElem _ j hj, getElem_laneToBytes]

theorem laneToBytes_bytesToLane (b : Vector Byte 8) : laneToBytes (bytesToLane b) = b := by
  ext1 j hj
  rw [getElem_laneToBytes, laneByte_bytesToLane_eq_getElem b j hj]

/-- Settles O10: both round trips hold byte by byte. -/
theorem codecRoundTrip : Obligations.CodecRoundTrip := ⟨bytesToLane_laneToBytes, laneToBytes_bytesToLane⟩

/-- Settles O11: the bytes of the lane for every input, the three written lanes by evaluation. -/
theorem bytesToLaneIsLittleEndian : Obligations.BytesToLaneIsLittleEndian :=
  ⟨fun b j => laneByte_bytesToLane_eq_getElem b j.val j.isLt, by decide, by decide, by decide⟩

/-- Settles O12: the bytes of every lane, the three written lanes by evaluation. -/
theorem laneToBytesIsLittleEndian : Obligations.LaneToBytesIsLittleEndian :=
  ⟨fun v j => getElem_laneToBytes v j.val j.isLt, by decide, by decide, by decide⟩

/-! ### The ports -/

/-- The input wires carry the bytes laneToBytes reads from them (41_lane_codec.md R47). -/
theorem codecPortBytes_eq_laneToBytes (w : BitVec 64) : codecPortBytes w = laneToBytes w := rfl

/-- The output wires [8j+7:8j] carry byte `j` (41_lane_codec.md R47). -/
theorem laneByte_codecPortWires (b : Vector Byte 8) {j : Nat} (hj : j < 8) :
    laneByte (codecPortWires b) j = nth 0 b j := by
  apply BitVec.eq_of_getLsbD_eq
  intro t ht
  rw [getLsbD_laneByte, codecPortWires, BitVec.getLsbD_ofFnLE, dif_pos (show 8 * j + t < 64 by omega),
    decide_eq_true ht, Bool.true_and, show (8 * j + t) / 8 = j by omega, show (8 * j + t) % 8 = t by omega]

/-- The output wires carry the lane bytesToLane makes of the bytes. -/
theorem codecPortWires_eq_bytesToLane (b : Vector Byte 8) : codecPortWires b = bytesToLane b :=
  lane_ext_bytes fun j hj => (laneByte_codecPortWires b hj).trans (laneByte_bytesToLane b j hj).symm

theorem codecLaneOut_eq (w : BitVec 64) : codecLaneOut w = w := by
  rw [codecLaneOut, codecPortBytes_eq_laneToBytes, bytesToLane_laneToBytes]

theorem codecBytesOut_eq (v : Lane) : codecBytesOut v = v := by
  rw [codecBytesOut, codecPortWires_eq_bytesToLane, bytesToLane_laneToBytes]

/-- The byte view of the state is laneToBytes of each lane (10_state.md R10, 41_lane_codec.md R47). -/
theorem readByte_eq_laneToBytes (S : Lanes) (i : Fin 25) (j : Fin 8) :
    readByte S (8 * i.val + j.val) = (laneToBytes S[i])[j] := by
  rw [← laneByte_lane S i.val j.val j.isLt, lane_eq_getElem S i.val i.isLt]
  exact (getElem_laneToBytes S[i] j.val j.isLt).symm

/-- Settles O13: the ports place the bytes as the codec does, so each path is a round trip. -/
theorem codecPortsAreIdentity : Obligations.CodecPortsAreIdentity :=
  ⟨codecLaneOut_eq, codecBytesOut_eq, readByte_eq_laneToBytes⟩

end Sys2Proof.Machine
end

section
/-! SUPPORT and proofs of the family 42_keccak_permutation.md: rotations, the five step mappings and what undoes each of
them, the round and the permutation, and the 1600-bit port. -/
namespace Sys2Proof.Machine

/-! ### Rotation -/

theorem rotl64_zero (v : Lane) : rotl64 v 0 = v := by
  apply BitVec.eq_of_getLsbD_eq
  intro i hi
  rw [getLsbD_rotl64 v 0 i (by omega) hi, show (i + (64 - 0)) % 64 = i by omega]

/-- A rotation works bit by bit, so it distributes over XOR. -/
theorem rotl64_xor (v w : Lane) {n : Nat} (hn : n ≤ 63) : rotl64 (v ^^^ w) n = rotl64 v n ^^^ rotl64 w n := by
  apply BitVec.eq_of_getLsbD_eq
  intro i hi
  simp only [BitVec.getLsbD_xor, getLsbD_rotl64 _ n i hn hi]

/-- Rotations compose by adding their distances modulo 64. -/
theorem rotl64_rotl64 (v : Lane) {m n : Nat} (hm : m ≤ 63) (hn : n ≤ 63) :
    rotl64 (rotl64 v m) n = rotl64 v ((m + n) % 64) := by
  apply BitVec.eq_of_getLsbD_eq
  intro i hi
  rw [getLsbD_rotl64 _ n i hn hi, getLsbD_rotl64 _ m _ hm (by omega), getLsbD_rotl64 _ _ i (by omega) hi]
  congr 1
  omega

@[simp] theorem rotl64_of_zero (n : Nat) : rotl64 0 n = 0 := by simp [rotl64]

theorem rotl64_allOnes {n : Nat} (hn : n ≤ 63) : rotl64 (BitVec.allOnes 64) n = BitVec.allOnes 64 := by
  apply BitVec.eq_of_getLsbD_eq
  intro i hi
  rw [getLsbD_rotl64 _ n i hn hi, BitVec.getLsbD_allOnes, BitVec.getLsbD_allOnes, decide_eq_true hi,
    decide_eq_true (by omega)]

/-- The bit 0 alone never wraps around. -/
theorem rotl64_one {n : Nat} (hn : n ≤ 63) : rotl64 1 n = 1 <<< n := by
  have hwrap : (1 : Lane) >>> (64 - n) = 0 := by
    apply BitVec.eq_of_toNat_eq
    rw [BitVec.toNat_ushiftRight, Nat.shiftRight_eq_div_pow]
    exact Nat.div_eq_of_lt (Nat.one_lt_two_pow (by omega))
  rw [rotl64, hwrap]
  exact BitVec.or_zero

/-- The value of a rotated lane, as the formula of 42_keccak_permutation.md R48 gives it. -/
theorem rotl64_toNat (v : Lane) (n : Nat) :
    (rotl64 v n).toNat = (v.toNat * 2 ^ n ||| v.toNat / 2 ^ (64 - n)) % 2 ^ 64 := by
  have hlow : v.toNat / 2 ^ (64 - n) < 2 ^ 64 := Nat.lt_of_le_of_lt (Nat.div_le_self _ _) v.isLt
  rw [rotl64, BitVec.toNat_or, BitVec.toNat_shiftLeft, BitVec.toNat_ushiftRight, Nat.shiftLeft_eq,
    Nat.shiftRight_eq_div_pow, Nat.or_mod_two_pow, Nat.mod_eq_of_lt hlow]

/-- Settles O15: a rotated lane by its bits and by its value. -/
theorem rotationMovesBits : Obligations.RotationMovesBits := by
  refine ⟨fun v n j hn hj => ?_, rotl64_zero, fun v n _ _ => rotl64_toNat v n, by decide⟩
  rw [getLsbD_rotl64 v n _ hn (by omega)]
  congr 1
  omega

/-! ### Coordinates -/

theorem laneXY_congr (A : Lanes) {x x' y y' : Nat} (hx : x % 5 = x' % 5) (hy : y % 5 = y' % 5) :
    laneXY A x y = laneXY A x' y' := by rw [laneXY, laneXY, hx, hy]

@[simp] theorem laneXY_replicate (v : Lane) (x y : Nat) : laneXY (Vector.replicate 25 v) x y = v :=
  lane_replicate 25 v _ (by omega)

/-- Row 0 is lanes 0..4. -/
theorem laneXY_row_zero (A : Lanes) {x : Nat} (hx : x < 5) : laneXY A x 0 = lane A x := by
  rw [laneXY, Nat.mod_eq_of_lt hx, Nat.zero_mod, Nat.mul_zero, Nat.add_zero]

/-- There are finitely many states, so an injective step mapping is a bijection. -/
theorem finite_lanes : Finite Lanes :=
  Finite.of_injective (fun (A : Lanes) (i : Fin 25) => lane A i.val) fun _ _ h =>
    lanes_ext fun i hi => congrFun h ⟨i, hi⟩

theorem bijective_of_injective {f : Lanes → Lanes} (h : Function.Injective f) : Function.Bijective f :=
  have := finite_lanes
  Finite.injective_iff_bijective.mp h

/-! ### theta -/

/-- The XOR of the five lanes of column `x`, the coordinate modulo 5 (42_keccak_permutation.md R50). -/
def columnXor (A : Lanes) (x : Nat) : Lane :=
  laneXY A x 0 ^^^ laneXY A x 1 ^^^ laneXY A x 2 ^^^ laneXY A x 3 ^^^ laneXY A x 4

theorem columnXor_congr (A : Lanes) {x x' : Nat} (hx : x % 5 = x' % 5) : columnXor A x = columnXor A x' := by
  simp only [columnXor, laneXY_congr A hx rfl]

theorem lane_columnParity (A : Lanes) {x : Nat} (hx : x < 5) : lane (columnParity A) x = columnXor A x :=
  lane_tabulate _ x hx

theorem laneXY_theta (A : Lanes) (x y : Nat) : laneXY (theta A) x y =
    laneXY A x y ^^^ (columnXor A (x + 4) ^^^ rotl64 (columnXor A (x + 1)) 1) := by
  have hx : x % 5 < 5 := by omega
  rw [theta, laneXY_tabulateXY, laneXY_mod, thetaMix, lane_tabulate _ _ hx, lane_columnParity A (by omega),
    lane_columnParity A (by omega), columnXor_congr A (x' := x + 4) (by simp),
    columnXor_congr A (x := ((x % 5 + 1) % 5)) (x' := x + 1) (by simp)]

/-- A state of 25 equal lanes that a rotation by 1 leaves alone is fixed by theta: the two neighbours cancel. -/
theorem theta_replicate {v : Lane} (hv : rotl64 v 1 = v) : theta (Vector.replicate 25 v) = Vector.replicate 25 v := by
  have hcol : ∀ x, columnXor (Vector.replicate 25 v) x = v := fun x => by simp [columnXor]
  apply lanes_ext_xy
  intro x y _ _
  rw [laneXY_theta, hcol, hcol, hv, BitVec.xor_self, BitVec.xor_zero]

/-- Settles O16: theta by its column parities, which cancel on the two fixed points. -/
theorem thetaByColumns : Obligations.ThetaByColumns := by
  refine ⟨fun A x y _ _ => ?_, theta_replicate (by decide), theta_replicate (by decide), by decide +kernel⟩
  show _ = laneXY A x y ^^^ (columnXor A ((x + 4) % 5) ^^^ rotl64 (columnXor A ((x + 1) % 5)) 1)
  rw [laneXY_theta, columnXor_congr A (Nat.mod_mod _ _), columnXor_congr A (Nat.mod_mod _ _)]

/-! ### theta is injective

Over GF(2), theta on column parities is multiplication by 1 + x + x⁻¹z, with x⁵ = 1 and z⁶⁴ = 1. Squaring such a sum
squares its terms, so theta done 2^j times has the shape of theta again, with the neighbours 2^j columns away and the
rotation by 2^j. At 2^j = 64 the rotation is gone, and what is left has order 3. -/

/-- What column `x` takes in from its neighbours `k` columns to either side, the one above rotated by `k`. -/
def strideMix (k : Nat) (A : Lanes) (x : Nat) : Lane :=
  columnXor A (x + 4 * k) ^^^ rotl64 (columnXor A (x + k)) (k % 64)

/-- theta with its two neighbours `k` columns away and the rotation by `k`; `k = 1` is theta. -/
def thetaStride (k : Nat) (A : Lanes) : Lanes := tabulateXY fun x y => laneXY A x y ^^^ strideMix k A x

theorem strideMix_congr (k : Nat) (A : Lanes) {x x' : Nat} (hx : x % 5 = x' % 5) :
    strideMix k A x = strideMix k A x' := by
  rw [strideMix, strideMix, columnXor_congr A (x' := x' + 4 * k) (by omega),
    columnXor_congr A (x := x + k) (x' := x' + k) (by omega)]

theorem laneXY_thetaStride (k : Nat) (A : Lanes) (x y : Nat) :
    laneXY (thetaStride k A) x y = laneXY A x y ^^^ strideMix k A x := by
  rw [thetaStride, laneXY_tabulateXY, laneXY_mod, strideMix_congr k A (Nat.mod_mod x 5)]

theorem thetaStride_one : thetaStride 1 = theta := by
  funext A
  apply lanes_ext_xy
  intro x y _ _
  rw [laneXY_thetaStride, laneXY_theta]
  rfl

/-- The five lanes of a column take in the same value, and five is odd. -/
theorem columnXor_thetaStride (k : Nat) (A : Lanes) (x : Nat) :
    columnXor (thetaStride k A) x = columnXor A x ^^^ strideMix k A x := by
  simp only [columnXor, laneXY_thetaStride]
  generalize strideMix k A x = m
  generalize laneXY A x 0 = a₀, laneXY A x 1 = a₁, laneXY A x 2 = a₂, laneXY A x 3 = a₃, laneXY A x 4 = a₄
  calc _ = (a₀ ^^^ a₁ ^^^ a₂ ^^^ a₃ ^^^ a₄ ^^^ m) ^^^ ((m ^^^ m) ^^^ (m ^^^ m)) := by ac_rfl
    _ = _ := by simp

/-- Squaring: the cross terms meet twice and cancel, and the squares reach twice as far. -/
theorem thetaStride_thetaStride (k : Nat) (A : Lanes) : thetaStride k (thetaStride k A) = thetaStride (2 * k) A := by
  apply lanes_ext_xy
  intro x y _ _
  have hk : k % 64 ≤ 63 := by omega
  have hback : columnXor A (x + 4 * k + k) = columnXor A x := columnXor_congr A (by omega)
  have hforth : columnXor A (x + k + 4 * k) = columnXor A x := columnXor_congr A (by omega)
  have hsq : rotl64 (rotl64 (columnXor A (x + k + k)) (k % 64)) (k % 64) =
      rotl64 (columnXor A (x + 2 * k)) (2 * k % 64) := by
    rw [rotl64_rotl64 _ hk hk, show x + k + k = x + 2 * k by omega, show (k % 64 + k % 64) % 64 = 2 * k % 64 by omega]
  rw [laneXY_thetaStride, laneXY_thetaStride, laneXY_thetaStride, strideMix, strideMix, strideMix,
    columnXor_thetaStride, columnXor_thetaStride, strideMix, strideMix, hback, hforth, rotl64_xor _ _ hk,
    rotl64_xor _ _ hk, hsq, show x + 4 * k + 4 * k = x + 4 * (2 * k) by omega]
  generalize laneXY A x y = a, columnXor A (x + 4 * k) = p, rotl64 (columnXor A (x + k)) (k % 64) = q,
    columnXor A (x + 4 * (2 * k)) = p', rotl64 (columnXor A x) (k % 64) = r,
    rotl64 (columnXor A (x + 2 * k)) (2 * k % 64) = q'
  calc _ = (a ^^^ (p' ^^^ q')) ^^^ ((p ^^^ p) ^^^ (q ^^^ q) ^^^ (r ^^^ r)) := by ac_rfl
    _ = _ := by simp

/-- At a multiple of 64 the rotation is gone, and only the columns' distance modulo 5 counts. -/
theorem strideMix_of_dvd {k : Nat} (hk : k % 64 = 0) (A : Lanes) (x : Nat) :
    strideMix k A x = columnXor A (x + 4 * k) ^^^ columnXor A (x + k) := by
  rw [strideMix, hk, rotl64_zero]

/-- (1 + x + x⁴)(1 + x² + x³) = 1: the stride 128 undoes the stride 64. -/
theorem thetaStride_128_thetaStride_64 (A : Lanes) : thetaStride 128 (thetaStride 64 A) = A := by
  apply lanes_ext_xy
  intro x y _ _
  have hmix : ∀ u, strideMix 64 A u = columnXor A (u + 1) ^^^ columnXor A (u + 4) := fun u => by
    rw [strideMix_of_dvd rfl, columnXor_congr A (x' := u + 1) (by omega),
      columnXor_congr A (x := u + 64) (x' := u + 4) (by omega)]
  have hmix' : strideMix 128 (thetaStride 64 A) x =
      columnXor (thetaStride 64 A) (x + 2) ^^^ columnXor (thetaStride 64 A) (x + 3) := by
    rw [strideMix_of_dvd rfl, columnXor_congr _ (x' := x + 2) (by omega),
      columnXor_congr _ (x := x + 128) (x' := x + 3) (by omega)]
  have h6 : columnXor A (x + 6) = columnXor A (x + 1) := columnXor_congr A (by omega)
  have h7 : columnXor A (x + 7) = columnXor A (x + 2) := columnXor_congr A (by omega)
  rw [laneXY_thetaStride, laneXY_thetaStride, hmix', columnXor_thetaStride, columnXor_thetaStride, hmix, hmix, hmix,
    Nat.add_assoc x 2, Nat.add_assoc x 2, Nat.add_assoc x 3, Nat.add_assoc x 3, h6, h7]
  generalize laneXY A x y = a, columnXor A (x + 1) = c₁, columnXor A (x + 2) = c₂, columnXor A (x + 3) = c₃,
    columnXor A (x + 4) = c₄
  calc _ = a ^^^ ((c₁ ^^^ c₁) ^^^ (c₂ ^^^ c₂) ^^^ (c₃ ^^^ c₃) ^^^ (c₄ ^^^ c₄)) := by ac_rfl
    _ = _ := by simp

theorem thetaStride_injective_of_two_pow_mul {k : Nat} (j : Nat)
    (h : Function.Injective (thetaStride (2 ^ j * k))) : Function.Injective (thetaStride k) := by
  induction j with
  | zero => rwa [Nat.pow_zero, Nat.one_mul] at h
  | succ j ih =>
    have hsq : thetaStride (2 ^ (j + 1) * k) = thetaStride (2 ^ j * k) ∘ thetaStride (2 ^ j * k) := funext fun A => by
      rw [Function.comp_apply, thetaStride_thetaStride, Nat.pow_succ', Nat.mul_assoc]
    exact ih (Function.Injective.of_comp (hsq ▸ h))

theorem theta_injective : Function.Injective theta :=
  thetaStride_one ▸ thetaStride_injective_of_two_pow_mul 6
    (Function.LeftInverse.injective thetaStride_128_thetaStride_64)

/-! ### rho -/

theorem lane_rho (A : Lanes) {i : Nat} (hi : i < 25) : lane (rho A) i = rotl64 (lane A i) (nth 0 rhoOffsets i) :=
  lane_tabulate _ i hi

theorem rhoOffsets_le {i : Nat} (hi : i < 25) : nth 0 rhoOffsets i ≤ 63 :=
  (show ∀ i, i < 25 → nth 0 rhoOffsets i ≤ 63 by decide) i hi

/-- A rotation by at most 63 is undone by going on to 64. -/
theorem rotl64_injective {n : Nat} (hn : n ≤ 63) : Function.Injective (rotl64 · n) :=
  Function.LeftInverse.injective (g := (rotl64 · ((64 - n) % 64))) fun v => by
    show rotl64 (rotl64 v n) _ = v
    rw [rotl64_rotl64 v hn (by omega), show (n + (64 - n) % 64) % 64 = 0 by omega, rotl64_zero]

theorem rho_injective : Function.Injective rho := fun A B h => lanes_ext fun i hi => by
  have hlane := congrArg (lane · i) h
  simp only [lane_rho _ hi] at hlane
  exact rotl64_injective (rhoOffsets_le hi) hlane

/-- rho fixes a state of 25 equal lanes that every rotation leaves alone. -/
theorem rho_replicate {v : Lane} (hv : ∀ n ≤ 63, rotl64 v n = v) :
    rho (Vector.replicate 25 v) = Vector.replicate 25 v :=
  lanes_ext fun i hi => by rw [lane_rho _ hi, lane_replicate _ _ _ hi, hv _ (rhoOffsets_le hi)]

/-- Settles O17: rho lane by lane; the rotations are injective and fix 0 and all-ones. -/
theorem rhoRotatesEachLane : Obligations.RhoRotatesEachLane := by
  refine ⟨fun A i hi => lane_rho A hi, fun A => ?_, bijective_of_injective rho_injective,
    rho_replicate fun n _ => rotl64_of_zero n, rho_replicate fun n hn => rotl64_allOnes hn, fun i hi => ?_,
    by decide +kernel⟩
  · rw [lane_rho A (by omega), show nth 0 rhoOffsets 0 = 0 from rfl, rotl64_zero]
  · rw [lane_rho _ hi, lane_replicate _ _ _ hi, rotl64_one (rhoOffsets_le hi)]

/-! ### pi -/

theorem laneXY_pi (A : Lanes) (x y : Nat) : laneXY (pi A) x y = laneXY A (x + 3 * y) x := by
  rw [pi, laneXY_tabulateXY]
  exact laneXY_congr A (by omega) (by omega)

/-- The inverse form: the lane at (x, y) moves to (y, 2x + 3y) (42_keccak_permutation.md R53). -/
theorem laneXY_pi_inverse (A : Lanes) (x y : Nat) : laneXY (pi A) y (2 * x + 3 * y) = laneXY A x y := by
  rw [laneXY_pi]
  exact laneXY_congr A (by omega) rfl

theorem pi_injective : Function.Injective pi := fun A B h => lanes_ext_xy fun x y _ _ => by
  rw [← laneXY_pi_inverse A, h, laneXY_pi_inverse]

/-- The table holds the index of the source coordinates. -/
theorem piSource_eq {i : Nat} (hi : i < 25) : nth 0 piSource i = (i % 5 + 3 * (i / 5)) % 5 + 5 * (i % 5 % 5) :=
  (show ∀ i, i < 25 → nth 0 piSource i = (i % 5 + 3 * (i / 5)) % 5 + 5 * (i % 5 % 5) by decide) i hi

theorem lane_pi (A : Lanes) {i : Nat} (hi : i < 25) : lane (pi A) i = lane A (nth 0 piSource i) := by
  rw [pi, tabulateXY, lane_tabulate _ i hi, laneXY, piSource_eq hi]

/-- Settles O18: pi by coordinates, read forwards, through the table and backwards. -/
theorem piMovesLanes : Obligations.PiMovesLanes := by
  refine ⟨fun A x y _ _ => ?_, fun A i hi => lane_pi A hi, fun A x y _ _ => ?_, fun A => lane_pi A (by omega),
    by decide +kernel⟩
  · rw [laneXY_pi]
    exact laneXY_congr A (by omega) rfl
  · rw [← laneXY_pi_inverse A x y]
    exact laneXY_congr _ rfl (by omega)

/-! ### chi -/

theorem laneXY_chi (A : Lanes) (x y : Nat) :
    laneXY (chi A) x y = laneXY A x y ^^^ (~~~(laneXY A (x + 1) y) &&& laneXY A (x + 2) y) := by
  have hmod : ∀ k, laneXY A (x % 5 + k) (y % 5) = laneXY A (x + k) y := fun k =>
    laneXY_congr A (by omega) (Nat.mod_mod y 5)
  rw [chi, laneXY_tabulateXY, laneXY_mod, hmod, hmod]

/-- Five lanes of a row are recovered from the five lanes of chi, here the first of them. -/
theorem chi_row_inverse (a b c d e : Lane) :
    (a ^^^ (~~~b &&& c)) ^^^
      (~~~(b ^^^ (~~~c &&& d)) &&&
        ((c ^^^ (~~~d &&& e)) ^^^ (~~~(d ^^^ (~~~e &&& a)) &&& (e ^^^ (~~~a &&& b))))) = a := by
  apply BitVec.eq_of_getLsbD_eq
  intro i hi
  simp only [BitVec.getLsbD_xor, BitVec.getLsbD_and, BitVec.getLsbD_not, hi, decide_true, Bool.true_and]
  generalize a.getLsbD i = a, b.getLsbD i = b, c.getLsbD i = c, d.getLsbD i = d, e.getLsbD i = e
  decide +revert

/-- The lane of A at (x, y), recovered from row `y` of chi(A) = `A'`. -/
def chiSource (A' : Lanes) (x y : Nat) : Lane :=
  laneXY A' x y ^^^
    (~~~(laneXY A' (x + 1) y) &&& (laneXY A' (x + 2) y ^^^ (~~~(laneXY A' (x + 3) y) &&& laneXY A' (x + 4) y)))

theorem chiSource_chi (A : Lanes) (x y : Nat) : chiSource (chi A) x y = laneXY A x y := by
  have h5 : laneXY A (x + 5) y = laneXY A x y := laneXY_congr A (by omega) rfl
  have h6 : laneXY A (x + 6) y = laneXY A (x + 1) y := laneXY_congr A (by omega) rfl
  simp only [chiSource, laneXY_chi, Nat.add_assoc, Nat.reduceAdd, h5, h6]
  exact chi_row_inverse _ _ _ _ _

theorem chi_injective : Function.Injective chi := fun A B h => lanes_ext_xy fun x y _ _ => by
  rw [← chiSource_chi A, h, chiSource_chi]

/-- chi on row 0, by lane numbers. -/
theorem lane_chi_row_zero (A : Lanes) {x : Nat} (hx : x < 5) :
    lane (chi A) x = lane A x ^^^ (~~~(lane A ((x + 1) % 5)) &&& lane A ((x + 2) % 5)) := by
  rw [← laneXY_row_zero _ hx, laneXY_chi, laneXY_row_zero _ hx]
  rfl

/-- Row 0 of chi from the five lanes of row 0. -/
theorem map_lane_chi_row_zero {A : Lanes} {a b c d e : Lane} (h : (List.range 5).map (lane A) = [a, b, c, d, e]) :
    (List.range 5).map (lane (chi A)) = [a ^^^ (~~~b &&& c), b ^^^ (~~~c &&& d), c ^^^ (~~~d &&& e),
      d ^^^ (~~~e &&& a), e ^^^ (~~~a &&& b)] := by
  have hrange : List.range 5 = [0, 1, 2, 3, 4] := rfl
  simp only [hrange, List.map_cons, List.map_nil, List.cons.injEq, and_true] at h ⊢
  obtain ⟨h0, h1, h2, h3, h4⟩ := h
  simp [lane_chi_row_zero, h0, h1, h2, h3, h4]

/-- Settles O19: chi's formula stays in one row, a row of five equal lanes is fixed, and the examples are rows. -/
theorem chiActsOnRows : Obligations.ChiActsOnRows := by
  have hformula : ∀ (A : Lanes) (x y : Nat), laneXY (chi A) x y =
      laneXY A x y ^^^ (~~~(laneXY A ((x + 1) % 5) y) &&& laneXY A ((x + 2) % 5) y) := fun A x y => by
    rw [laneXY_chi, laneXY_congr A (Nat.mod_mod (x + 1) 5) rfl, laneXY_congr A (Nat.mod_mod (x + 2) 5) rfl]
  refine ⟨fun A x y _ _ => hformula A x y, fun A B y _ hrow x hx => ?_, fun A y v _ _ hrow x hx => ?_,
    fun A hA => map_lane_chi_row_zero hA, fun A hA => map_lane_chi_row_zero hA⟩
  · rw [hformula, hformula, hrow x hx, hrow _ (by omega), hrow _ (by omega)]
  · rw [hformula, hrow x hx, hrow _ (by omega), hrow _ (by omega), BitVec.and_comm, BitVec.and_not_self]
    exact BitVec.xor_zero

/-! ### iota, the round and the permutation -/

theorem lane_iota (A : Lanes) (ir : Nat) {i : Nat} (hi : i < 25) :
    lane (iota A ir) i = if i = 0 then lane A 0 ^^^ lane roundConstants ir else lane A i :=
  lane_setLane A 0 i _ hi

/-- iota with the same constant undoes itself. -/
theorem iota_iota (A : Lanes) (ir : Nat) : iota (iota A ir) ir = A := lanes_ext fun i hi => by
  rw [lane_iota _ _ hi, lane_iota _ _ hi, lane_iota _ _ (by omega), if_pos rfl]
  split
  · next h => rw [h, BitVec.xor_assoc, BitVec.xor_self, BitVec.xor_zero]
  · rfl

/-- Settles O20: iota writes one lane. -/
theorem iotaChangesLaneZero : Obligations.IotaChangesLaneZero := by
  refine ⟨fun A ir _ => ⟨?_, fun i hi hi' => ?_⟩, by decide +kernel⟩
  · rw [lane_iota A ir (by omega), if_pos rfl]
  · rw [lane_iota A ir hi', if_neg (by omega)]

/-- Settles O21: the composition is the definition; the two known answers by evaluation. -/
theorem roundKnownAnswers : Obligations.RoundKnownAnswers :=
  ⟨fun _ _ _ => rfl, by decide +kernel, by decide +kernel⟩

/-- Settles O22: one closed KeccakF, by evaluation. -/
theorem keccakFOfZero : Obligations.KeccakFOfZero := by
  unfold Obligations.KeccakFOfZero
  decide +kernel

/-- Every round is injective, its five step mappings being so. -/
theorem keccakRound_injective (ir : Nat) : Function.Injective (keccakRound · ir) :=
  have hiota : Function.Injective (iota · ir) := Function.LeftInverse.injective (g := (iota · ir)) (iota_iota · ir)
  hiota.comp (chi_injective.comp (pi_injective.comp (rho_injective.comp theta_injective)))

theorem foldl_keccakRound_injective (l : List Nat) : Function.Injective (l.foldl keccakRound) := by
  induction l with
  | nil => exact Function.injective_id
  | cons ir l ih => exact ih.comp (keccakRound_injective ir)

/-- Settles O23: KeccakF is a fold of injective rounds on a finite set of states. -/
theorem keccakFIsBijective : Obligations.KeccakFIsBijective :=
  bijective_of_injective (foldl_keccakRound_injective (List.range Config.rounds))

/-- Settles O24: two finite tables against their generating rules, by evaluation. -/
theorem tablesFollowGeneratingRules : Obligations.TablesFollowGeneratingRules :=
  ⟨rfl, by decide, by decide, by decide +kernel⟩

/-! ### The port -/

/-- Bit `b` of the port is bit `b mod 64` of lane `b div 64` (42_keccak_permutation.md R60). -/
theorem getLsbD_lanesToPort (A : Lanes) {b : Nat} (hb : b < 1600) :
    (lanesToPort A).getLsbD b = (lane A (b / 64)).getLsbD (b % 64) := by
  rw [lanesToPort, BitVec.getLsbD_ofFnLE, dif_pos hb]

theorem getLsbD_lane_portToLanes (w : BitVec 1600) {i j : Nat} (hi : i < 25) (hj : j < 64) :
    (lane (portToLanes w) i).getLsbD j = w.getLsbD (64 * i + j) := by
  rw [portToLanes, lane_tabulate _ i hi, BitVec.getLsbD_extractLsb', decide_eq_true hj, Bool.true_and]

theorem extractLsb'_lanesToPort (A : Lanes) {k : Nat} (hk : k < 200) :
    (lanesToPort A).extractLsb' (8 * k) 8 = readByte A k := by
  apply BitVec.eq_of_getLsbD_eq
  intro t ht
  rw [BitVec.getLsbD_extractLsb', getLsbD_lanesToPort A (by omega), readByte, getLsbD_laneByte,
    show (8 * k + t) / 64 = k / 8 by omega, show (8 * k + t) % 64 = 8 * (k % 8) + t by omega]

theorem portToLanes_lanesToPort (A : Lanes) : portToLanes (lanesToPort A) = A := lanes_ext fun i hi => by
  apply BitVec.eq_of_getLsbD_eq
  intro j hj
  rw [getLsbD_lane_portToLanes _ hi hj, getLsbD_lanesToPort A (by omega), show (64 * i + j) / 64 = i by omega,
    show (64 * i + j) % 64 = j by omega]

theorem lanesToPort_portToLanes (w : BitVec 1600) : lanesToPort (portToLanes w) = w := by
  apply BitVec.eq_of_getLsbD_eq
  intro b hb
  rw [getLsbD_lanesToPort _ hb, getLsbD_lane_portToLanes w (by omega) (by omega), Nat.div_add_mod]

/-- Settles O25: the port bit by bit, in both directions. -/
theorem permutationPortShape : Obligations.PermutationPortShape := by
  refine ⟨fun A i j hj => ?_, fun A k hk => extractLsb'_lanesToPort A hk, portToLanes_lanesToPort,
    lanesToPort_portToLanes, fun A => ?_⟩
  · rw [getLsbD_lanesToPort A (by omega), show (64 * i.val + j) / 64 = i.val by omega,
      show (64 * i.val + j) % 64 = j by omega, lane_eq_getElem A i.val i.isLt]
    rfl
  · rw [keccakPort, portToLanes_lanesToPort]

end Sys2Proof.Machine
end

section
/-! SUPPORT and proofs of the family 43_sponge_absorb.md: the ABSORB command in both phases, its streaming, and the
lane-at-a-time algorithm against the byte-wise rule. -/
namespace Sys2Proof.Machine

/-! ### Absorbing up to the end of a block -/

/-- Inside one block absorption moves POS by the payload's length and leaves PHASE and the count of KeccakF alone
(43_sponge_absorb.md R62). -/
theorem absorbBytes_within {e : Engine} {p : List Byte} (h : e.pos.val + p.length < 168) :
    absorbBytes e p = { e with lanes := (absorbBytes e p).lanes, pos := ⟨e.pos.val + p.length, h⟩ } := by
  have hpos : (absorbBytes e p).pos = ⟨e.pos.val + p.length, h⟩ :=
    Fin.ext ((absorbBytes_pos e p).trans (Nat.mod_eq_of_lt h))
  have hcount : (absorbBytes e p).permCount = e.permCount := by
    rw [absorbBytes_permCount, Nat.div_eq_of_lt h, Nat.add_zero]
  rw [← hpos, ← hcount, ← absorbBytes_phase e p]

/-- Advancing the cursor by `n` after `m` places inside the block is advancing it by `m + n`. -/
theorem advanceAbsorb_add {e : Engine} {m : Nat} (n : Nat) (h : e.pos.val + m < 168) :
    advanceAbsorb { e with pos := ⟨e.pos.val + m, h⟩ } n = advanceAbsorb e (m + n) := by
  rcases Nat.lt_or_ge (e.pos.val + m + n) 168 with hlt | hge
  · rw [advanceAbsorb_within (e := { e with pos := ⟨e.pos.val + m, h⟩ }) hlt,
      advanceAbsorb_within (n := m + n) (by omega)]
    simp only [Nat.add_assoc]
  · rw [advanceAbsorb_full (e := { e with pos := ⟨e.pos.val + m, h⟩ }) hge, advanceAbsorb_full (n := m + n) (by omega)]
    rfl

/-- Up to the end of a block, absorbing a payload is XORing all of it in and advancing the cursor once, by its length
(43_sponge_absorb.md R67). `S` is the state with the payload XORed in. -/
theorem absorbBytes_eq_advanceAbsorb {e : Engine} {p : List Byte} {S : Lanes} (hne : p ≠ [])
    (h : e.pos.val + p.length ≤ 168)
    (hS : ∀ k < 200, readByte S k =
      if e.pos.val ≤ k ∧ k < e.pos.val + p.length then readByte e.lanes k ^^^ p.getD (k - e.pos.val) 0
      else readByte e.lanes k) :
    absorbBytes e p = advanceAbsorb { e with lanes := S } p.length := by
  obtain ⟨q, b, rfl⟩ := (List.eq_nil_or_concat' p).resolve_left hne
  rw [List.length_append, List.length_singleton] at h hS ⊢
  have hq : e.pos.val + q.length < 168 := by omega
  have hlanes : xorByte (absorbBytes e q).lanes (e.pos.val + q.length) b = S := by
    apply lanes_ext_bytes
    intro k hk
    rw [readByte_xorByte _ _ _ _ hk, readByte_absorbBytes_within hq hk, hS k hk]
    rcases Nat.lt_trichotomy k (e.pos.val + q.length) with hlt | heq | hgt
    · rw [if_neg (by omega)]
      by_cases hin : e.pos.val ≤ k
      · rw [if_pos (by omega), if_pos (by omega), List.getD_append _ _ _ _ (by omega)]
      · rw [if_neg (by omega), if_neg (by omega)]
    · rw [if_pos heq, if_neg (by omega), if_pos (by omega), List.getD_append_right _ _ _ _ (by omega),
        show k - e.pos.val - q.length = 0 by omega, List.getD_cons_zero]
    · rw [if_neg (by omega), if_neg (by omega), if_neg (by omega)]
  calc absorbBytes e (q ++ [b])
      = absorbByte (absorbBytes e q) b := absorbBytes_append e q [b]
    _ = advanceAbsorb { e with lanes := S, pos := ⟨e.pos.val + q.length, hq⟩ } 1 := by
        rw [absorbBytes_within hq, ← hlanes]
        rfl
    _ = advanceAbsorb { e with lanes := S } (q.length + 1) := advanceAbsorb_add (e := { e with lanes := S }) 1 hq

/-! ### Absorbing one whole lane -/

/-- XORing eight payload bytes into lane `i` XORs them into state bytes 8i to 8i + 7 (20_memory.md R22). -/
theorem readByte_setLane_xor_eightBytes (S : Lanes) (p : List Byte) (i : Nat) {k : Nat} (hk : k < 200) :
    readByte (setLane S i (lane S i ^^^ bytesToLane (eightBytes p 0))) k =
      if k / 8 = i then readByte S k ^^^ p.getD (k % 8) 0 else readByte S k := by
  have hj : k % 8 < 8 := by omega
  rw [readByte, lane_setLane _ _ _ _ (by omega)]
  split
  · next hi =>
    rw [laneByte_xor, laneByte_bytesToLane _ _ hj, nth_eightBytes _ _ _ hj, Nat.zero_add, ← hi, readByte]
  · rfl

/-- Eight bytes absorbed from a lane-aligned POS are one lane XORed in (43_sponge_absorb.md R67, step 3). -/
theorem absorbBytes_lane {e : Engine} {p : List Byte} (ha : e.pos.val % 8 = 0) (hlen : 8 ≤ p.length) :
    absorbBytes e (p.take 8) = advanceAbsorb { e with
      lanes := setLane e.lanes (e.pos.val / 8) (lane e.lanes (e.pos.val / 8) ^^^ bytesToLane (eightBytes p 0)) } 8 := by
  have hpos := e.pos.isLt
  have h8 : (p.take 8).length = 8 := by rw [List.length_take]; omega
  have hne : p.take 8 ≠ [] := List.ne_nil_of_length_eq_add_one h8
  rw [absorbBytes_eq_advanceAbsorb hne (by omega), h8]
  intro k hk
  rw [readByte_setLane_xor_eightBytes _ _ _ hk, h8]
  by_cases hin : e.pos.val ≤ k ∧ k < e.pos.val + 8
  · rw [if_pos (by omega), if_pos hin, show k - e.pos.val = k % 8 by omega, List.getD_eq_getElem?_getD,
      List.getD_eq_getElem?_getD, List.getElem?_take_of_lt (by omega)]
  · rw [if_neg (by omega), if_neg hin]

/-- After a whole lane POS is lane-aligned again, also when the block is full. -/
theorem advanceAbsorb_eight_aligned {e : Engine} (ha : e.pos.val % 8 = 0) :
    (advanceAbsorb e 8).pos.val % 8 = 0 := by
  rcases advanceAbsorb_cases e 8 with ⟨_, h⟩ | ⟨_, h⟩
  · rw [h]
    dsimp only
    omega
  · rw [h]
    rfl

/-! ### The steps of the lane-at-a-time algorithm

Each step hands on an engine and the rest of the payload; absorbing that rest byte by byte gives the engine that
absorbing the step's whole payload gives. -/

theorem absorbBytes_absorbFinishLane (p : List Byte) (e : Engine) :
    absorbBytes (absorbFinishLane p e).2 (absorbFinishLane p e).1 = absorbBytes e p := by
  induction p generalizing e with
  | nil => rfl
  | cons b p ih =>
    rw [absorbFinishLane]
    split
    · rfl
    · exact ih (absorbByte e b)

/-- Step 1 ends with the payload used up or POS lane-aligned (43_sponge_absorb.md R67). -/
theorem absorbFinishLane_nil_or_aligned (p : List Byte) (e : Engine) :
    (absorbFinishLane p e).1 = [] ∨ (absorbFinishLane p e).2.pos.val % 8 = 0 := by
  induction p generalizing e with
  | nil => exact .inl rfl
  | cons b p ih =>
    rw [absorbFinishLane]
    split
    · next ha => exact .inr ha
    · exact ih (absorbByte e b)

theorem absorbBytes_absorbWholeBlocks (fuel : Nat) (p : List Byte) (e : Engine) :
    absorbBytes (absorbWholeBlocks fuel p e).2 (absorbWholeBlocks fuel p e).1 = absorbBytes e p := by
  induction fuel generalizing p e with
  | zero => rfl
  | succ fuel ih =>
    rw [absorbWholeBlocks]
    split
    · next h =>
      obtain ⟨h0, hlen⟩ := h
      rw [ih, ← absorbBytes_block h0 hlen, ← absorbBytes_append, List.take_append_drop]
    · rfl

/-- Step 2 leaves POS as it was: it runs only from POS = 0 and every turn ends there. -/
theorem absorbWholeBlocks_pos (fuel : Nat) (p : List Byte) (e : Engine) :
    (absorbWholeBlocks fuel p e).2.pos = e.pos := by
  induction fuel generalizing p e with
  | zero => rfl
  | succ fuel ih =>
    rw [absorbWholeBlocks]
    split
    · exact ih _ _
    · rfl

theorem absorbBytes_absorbWholeLanes (fuel : Nat) (p : List Byte) {e : Engine} (ha : e.pos.val % 8 = 0) :
    absorbBytes (absorbWholeLanes fuel p e).2 (absorbWholeLanes fuel p e).1 = absorbBytes e p := by
  induction fuel generalizing p e with
  | zero => rfl
  | succ fuel ih =>
    rw [absorbWholeLanes]
    split
    · next hlen =>
      dsimp only
      rw [ih _ (advanceAbsorb_eight_aligned (by exact ha)), ← absorbBytes_lane ha hlen, ← absorbBytes_append,
        List.take_append_drop]
    · rfl

/-- Settles O32: every step keeps what is still to be absorbed, and step 3 starts lane-aligned. -/
theorem absorbByLanesConforms : Obligations.AbsorbByLanesConforms := by
  intro e p
  change absorbByLanes e p = absorbBytes e p
  rw [absorbByLanes, ← absorbBytes_absorbFinishLane p e]
  rcases absorbFinishLane_nil_or_aligned p e with hnil | ha
  · rw [hnil]
    rfl
  · rw [absorbBytes_absorbWholeLanes _ _ (by rwa [absorbWholeBlocks_pos]), absorbBytes_absorbWholeBlocks]

/-! ### The ABSORB command -/

/-- Settles O27: ABSORB is the fold of AbsorbByte over its payload, whose POS, PHASE and count are known. -/
theorem absorbCompletes : Obligations.AbsorbCompletes := by
  intro len s hph hlen
  subst hlen
  have hphase : (absorbBytes s.engine s.payload).phase = .absorbing := (absorbBytes_phase _ _).trans hph
  refine ⟨_, exec_absorb_absorbing hph rfl, rfl, absorbBytes_pos _ _, absorbBytes_permCount _ _, hphase, ?_,
    rfl, rfl, rfl, rfl⟩
  rw [respond_replies, hphase, respond_engine]

/-- Settles O31: either run leaves the fold of AbsorbByte over the payloads in a row, and these are the same bytes. -/
theorem absorbStreamingEquivalence : Obligations.AbsorbStreamingEquivalence := by
  intro s₁ s₂ p₁ p₂ heng hph hflat hlen₁ hlen₂ hp₁ hp₂
  obtain ⟨t₁, ⟨hrun₁, -⟩, -, ht₁⟩ := runsTo_absorbs hph hlen₁ (hp₁.trans (List.append_nil _).symm)
  obtain ⟨t₂, ⟨hrun₂, -⟩, -, ht₂⟩ := runsTo_absorbs (heng ▸ hph) hlen₂ (hp₂.trans (List.append_nil _).symm)
  exact ⟨t₁, t₂, hrun₁, hrun₂, by rw [ht₁, ht₂, heng, hflat], ht₁⟩

/-- Settles O26: the two cases of AbsorbByte, by POS. -/
theorem absorbByteStep : Obligations.AbsorbByteStep := by
  intro e b
  refine ⟨absorbByte_phase e b, fun h => ?_, fun h => ?_⟩
  · rw [absorbByte_within (by omega)]
    exact ⟨rfl, rfl, rfl⟩
  · rw [absorbByte_last h]
    exact ⟨rfl, rfl, rfl⟩

/-- ABSORB while Squeezing ends in ERR_PHASE, whatever its length (43_sponge_absorb.md R64). -/
theorem exec_absorb_squeezing {s : State} {len : Nat} (hph : s.engine.phase = .squeezing)
    (hlen : s.payload.length = len) : exec (.absorb len) s = .next (raiseError .errPhase s) := by
  obtain ⟨t, ht⟩ := (exec_completes_iff (.absorb len) s).2 hlen
  rcases exec_cases ht with ⟨h, -, -⟩ | ⟨_, -, -, habs, -⟩ | ⟨_, -, -, -, rfl⟩ | ⟨_, h, -, -⟩
  · cases h
  · rw [hph] at habs
    cases habs
  · exact ht
  · cases h

/-- Settles O29: the error's response carries the PHASE the engine is in. -/
theorem absorbWhileSqueezingIsPhaseError : Obligations.AbsorbWhileSqueezingIsPhaseError := by
  intro len s hph hlen
  rw [exec_absorb_squeezing hph hlen, raiseError, respond, hph]

/-- Settles O30: while Absorbing the fold over no bytes is the engine itself; while Squeezing it is the error. -/
theorem absorbZeroChangesNothing : Obligations.AbsorbZeroChangesNothing := by
  intro s hpay
  have hlen : s.payload.length = 0 := by rw [hpay]; rfl
  rcases hph : s.engine.phase with _ | _
  · rw [exec_absorb_absorbing hph hlen, hpay, absorbBytes_nil, if_pos rfl, respond, hph]
  · rw [exec_absorb_squeezing hph hlen, if_neg (by decide), raiseError, respond, hph]

end Sys2Proof.Machine
end

section
/-! SUPPORT and proofs of the family 44_sponge_finalize.md: the bytes and the lanes Finalize writes, and a whole session
against the one-shot SHAKE128. -/
namespace Sys2Proof.Machine

/-! ### A session -/

/-- Settles O44: INIT, the ABSORB commands and the SQUEEZE commands run one after the other, and the output stream of
the padded state is the one-shot construction's. -/
theorem sessionComputesShake128 : Obligations.SessionComputesShake128 := by
  intro s chunks lens hchunks hlens hp
  obtain ⟨t, hrun, r, hr, hout⟩ := runsTo_session hchunks hlens hp
  exact ⟨t, r, hrun, hr, hout⟩

/-! ### What Finalize writes -/

/-- The 200 bytes after Finalize: one XOR at POS and one at byte 167, both where the two coincide
(44_sponge_finalize.md R69). -/
theorem readByte_finalize (e : Engine) {k : Nat} (hk : k < 200) : readByte (finalize e).lanes k =
    readByte e.lanes k ^^^ (if k = e.pos.val then 0x1F else 0) ^^^ (if k = 167 then 0x80 else 0) := by
  rw [finalize_lanes, readByte_xorByte _ _ _ _ hk, readByte_xorByte _ _ _ _ hk]
  split <;> split <;> simp

/-- The 25 lanes after Finalize: the padding byte in the lane of POS and the final bit in lane 20
(44_sponge_finalize.md R71). -/
theorem lane_finalize (e : Engine) {i : Nat} (hi : i < 25) : lane (finalize e).lanes i =
    lane e.lanes i ^^^ (if i = e.pos.val / 8 then (0x1F : Lane) <<< (8 * (e.pos.val % 8)) else 0) ^^^
      (if i = 20 then 0x8000000000000000 else 0) := by
  rw [finalize_lanes, lane_xorByte _ _ _ _ hi, lane_xorByte _ _ _ _ hi]
  split <;> split <;> simp

/-- Settles O33: the bytes of Finalize; the worked example is its lanes after absorbing "abc" (R69). -/
theorem finalizePadsOnce : Obligations.FinalizePadsOnce :=
  ⟨fun e => ⟨fun k hk => readByte_finalize e hk, rfl, rfl, rfl⟩, by decide⟩

/-- Settles O34: each corner case is Finalize's effect on one byte or one lane. -/
theorem finalizeCornerCases : Obligations.FinalizeCornerCases := by
  refine ⟨fun e hpos => ⟨?_, fun k hk => ?_⟩, fun e hpos => ⟨?_, ?_⟩, fun e hlane => ?_, fun e hlane => ?_,
    fun e i hlow hi => ?_⟩
  · rw [readByte_finalize e (by decide), hpos, if_pos rfl, if_pos rfl, BitVec.xor_assoc]
    rfl
  · simp [readByte_finalize e (show k < 200 by omega), hpos, hk.ne]
  · simp [readByte_finalize e (show 0 < 200 by decide), hpos]
  · simp [readByte_finalize e (show 167 < 200 by decide), hpos]
  · simp [lane_finalize e (show e.pos.val / 8 < 25 by omega), hlane]
  · rw [lane_finalize e (by decide), if_pos hlane.symm, if_pos rfl]
  · rw [finalize_lanes, lane_xorByte_capacity _ _ (by decide) hlow hi, lane_xorByte_capacity _ _ e.pos.isLt hlow hi]

end Sys2Proof.Machine
end

section
/-! SUPPORT and proofs of the family 45_sponge_squeeze.md: the SQUEEZE command in both phases, its streaming and the
closed form of its output, and the lane-at-a-time algorithm against the byte-wise rule. -/
namespace Sys2Proof.Machine

/-! ### Squeezing a whole block -/

/-- A block of output squeezed from POS = 0 is KeccakF and then the bytes of the rate lanes; POS is 0 again
(45_sponge_squeeze.md R77, step 3). -/
theorem squeezeBytes_block {e : Engine} (h0 : e.pos.val = 0) :
    squeezeBytes 168 e = (blockBytes (permute e).lanes, permute e) := by
  have hlanes : (squeezeBytes 168 e).2.lanes = keccakF e.lanes := by
    rw [squeezeBytes_lanes_of_block (by omega), refill_of_pos_eq_zero h0, permute_lanes]
  have hpos : (squeezeBytes 168 e).2.pos = e.pos := Fin.ext (by rw [squeezeBytes_pos, h0])
  have hcount : (squeezeBytes 168 e).2.permCount = e.permCount + 1 := by
    rw [squeezeBytes_permCount, h0, if_pos rfl]
  have hengine : (squeezeBytes 168 e).2 = permute e := by
    rw [permute, ← hlanes, ← hcount, ← hpos, ← squeezeBytes_phase 168 e]
  have hbytes : (squeezeBytes 168 e).1 = blockBytes (permute e).lanes := by
    have hunpack := unpackWords_of_packs (packs_squeezed_block h0)
    rw [squeezeBytes_length, hengine, unpackWords, List.flatMap_map, List.take_of_length_le (by simp)] at hunpack
    exact hunpack.symm
  exact Prod.ext hbytes hengine

/-! ### The steps of the lane-at-a-time algorithm

Each step hands on the bytes it has output, the number of bytes still to be output, and an engine. -/

/-- What a step of the lane-at-a-time algorithm comes to when the bytes it leaves are squeezed one by one. -/
def thenSqueeze (r : List Byte × Nat × Engine) : List Byte × Engine :=
  (r.1 ++ (squeezeBytes r.2.1 r.2.2).1, (squeezeBytes r.2.1 r.2.2).2)

theorem thenSqueeze_squeezeFinishLane (n : Nat) (e : Engine) :
    thenSqueeze (squeezeFinishLane n e) = squeezeBytes n e := by
  induction n generalizing e with
  | zero => rfl
  | succ n ih =>
    rw [squeezeFinishLane]
    split
    · rfl
    · rw [squeezeBytes_succ, ← ih]
      rfl

theorem thenSqueeze_squeezeWholeBlocks (fuel n : Nat) (e : Engine) :
    thenSqueeze (squeezeWholeBlocks fuel n e) = squeezeBytes n e := by
  induction fuel generalizing n e with
  | zero => rfl
  | succ fuel ih =>
    rw [squeezeWholeBlocks]
    split
    · next h =>
      obtain ⟨h0, hn⟩ := h
      obtain ⟨m, rfl⟩ := Nat.exists_eq_add_of_le hn
      rw [squeezeBytes_add, squeezeBytes_block (congrArg Fin.val h0), Nat.add_sub_cancel_left, ← ih]
      exact Prod.ext (List.append_assoc _ _ _) rfl
    · rfl

/-- Settles O40: the whole blocks and the trailing bytes are the bytes the first step leaves, squeezed one by one. -/
theorem squeezeByLanesConforms : Obligations.SqueezeByLanesConforms := by
  intro e len hlen
  rw [squeezeOutput_pos (Nat.ne_of_gt hlen), ← thenSqueeze_squeezeFinishLane, thenSqueeze,
    ← thenSqueeze_squeezeWholeBlocks (squeezeFinishLane len (finalizeIfAbsorbing e)).2.1]
  exact Prod.ext (List.append_assoc _ _ _) rfl

/-! ### The output stream -/

/-- Settles O39: either run outputs and leaves what one SQUEEZE of the total length does. -/
theorem squeezeStreamingEquivalence : Obligations.SqueezeStreamingEquivalence := by
  intro s₁ s₂ l₁ l₂ heng hsum hlen₁ hlen₂ hp₁ hp₂
  obtain ⟨t₁, ⟨hrun₁, r₁, hr₁, hout₁⟩, -, ht₁⟩ := runsTo_squeezes hlen₁ (hp₁.trans (List.append_nil _).symm)
  obtain ⟨t₂, ⟨hrun₂, r₂, hr₂, hout₂⟩, -, ht₂⟩ := runsTo_squeezes hlen₂ (hp₂.trans (List.append_nil _).symm)
  refine ⟨t₁, t₂, r₁, r₂, hrun₁, hrun₂, ?_, hr₁, hr₂, ?_, ?_⟩
  · rw [ht₁, ht₂, heng, hsum]
  · rw [hout₁, hout₂, heng, hsum]
  · rw [hout₁, squeezeOutput_length]

/-- A SQUEEZE while Absorbing outputs the stream of the state right after Finalize (45_sponge_squeeze.md R78). -/
theorem squeezeOutput_eq_streamByte (n : Nat) {e : Engine} (hph : e.phase = .absorbing) :
    (squeezeOutput n e).1 = (List.range n).map (streamByte (finalize e).lanes) := by
  rcases Nat.eq_zero_or_pos n with rfl | hn
  · rfl
  · rw [squeezeOutput_pos hn.ne', finalizeIfAbsorbing_absorbing hph, squeezeBytes_eq_streamByte n rfl]

/-- Settles O41: the commands output what one SQUEEZE of their total does, and that is the stream. -/
theorem outputStreamClosedForm : Obligations.OutputStreamClosedForm := by
  intro s lens hph hlen hp
  obtain ⟨t, ⟨hrun, r, hr, hout⟩, -, -⟩ := runsTo_squeezes hlen (hp.trans (List.append_nil _).symm)
  exact ⟨t, r, hrun, hr, hout.trans (squeezeOutput_eq_streamByte lens.sum hph)⟩

/-! ### The SQUEEZE command -/

/-- SQUEEZE completes with status OK in both phases (45_sponge_squeeze.md R74). -/
theorem exec_squeeze {s : State} (len : Nat) (hpay : s.payload = []) :
    exec (.squeeze len) s = .next (respond .ok (squeezeOutput len s.engine).1 (squeezeOutput len s.engine).2 s) :=
  withPayload_of_eq _ (congrArg List.length hpay)

theorem finalizeIfAbsorbing_eq_ite (e : Engine) :
    finalizeIfAbsorbing e = if e.phase = .absorbing then finalize e else e := by
  rcases h : e.phase with _ | _
  · rw [finalizeIfAbsorbing_absorbing h, if_pos rfl]
  · rw [finalizeIfAbsorbing_squeezing h, if_neg (by decide)]

theorem finalizeIfAbsorbing_pos (e : Engine) :
    (finalizeIfAbsorbing e).pos.val = if e.phase = .absorbing then 0 else e.pos.val := by
  rw [finalizeIfAbsorbing_eq_ite]
  split <;> rfl

/-- Finalize runs no KeccakF (44_sponge_finalize.md R69). -/
theorem finalizeIfAbsorbing_permCount (e : Engine) : (finalizeIfAbsorbing e).permCount = e.permCount := by
  rw [finalizeIfAbsorbing_eq_ite]
  split <;> rfl

/-- Settles O37: SQUEEZE is the SqueezeBytes from the finalized engine, whose POS, PHASE and count are known. -/
theorem squeezeCompletes : Obligations.SqueezeCompletes := by
  intro len s hpay hlen
  obtain ⟨n, rfl⟩ := Nat.exists_eq_add_of_le' hlen
  have hexec := exec_squeeze (n + 1) hpay
  rw [squeezeOutput_pos (Nat.ne_of_gt hlen)] at hexec
  have hphase : (squeezeBytes (n + 1) (finalizeIfAbsorbing s.engine)).2.phase = .squeezing := by
    rw [squeezeBytes_phase, finalizeIfAbsorbing_phase]
  refine ⟨_, _, hexec, ?_, squeezeBytes_length _ (finalizeIfAbsorbing s.engine), ⟨?_, ?_⟩, hphase, ?_,
    rfl, rfl, rfl, rfl⟩
  · rw [← finalizeIfAbsorbing_eq_ite, respond_engine]
  · rw [← finalizeIfAbsorbing_pos, respond_engine, squeezeBytes_pos]
  · rw [← finalizeIfAbsorbing_pos, ← finalizeIfAbsorbing_permCount s.engine, respond_engine, squeezeBytes_permCount,
      Nat.add_sub_cancel]
  · rw [respond_replies, hphase, respond_engine]

/-- Settles O36: the two cases of SqueezeByte, by POS. -/
theorem squeezeByteStep : Obligations.SqueezeByteStep := by
  intro e
  refine ⟨squeezeByte_phase e, squeezeByte_pos e, fun h => ?_, fun h => ?_⟩
  · rw [squeezeByte, refill_of_pos_eq_zero h, permute_pos, h]
    exact ⟨rfl, rfl, rfl⟩
  · rw [squeezeByte, refill_of_pos_ne h]
    exact ⟨rfl, rfl, rfl⟩

/-- A step on ABSORB while Absorbing, from the host's list (43_sponge_absorb.md R63). -/
theorem step_absorbCommand {s : State} {p : List Byte} {rest : List HostEvent} (hph : s.engine.phase = .absorbing)
    (hlen : p.length ≤ Config.maxLen) (hp : s.pending = .command (absorbCommand p) :: rest) :
    step s = .next (respond .ok [] (absorbBytes s.engine p) (startCommand (absorbCommand p) rest s)) :=
  (step_command_ok hp (decodeOfEncode (.absorb p.length) (decide_eq_true hlen))).trans (exec_absorb_absorbing hph rfl)

/-- A step on SQUEEZE 0 writes no register and outputs no byte, in either phase (45_sponge_squeeze.md R75). -/
theorem step_squeezeCommand_zero {s : State} {rest : List HostEvent}
    (hp : s.pending = .command (squeezeCommand 0) :: rest) :
    step s = .next (respond .ok [] s.engine (startCommand (squeezeCommand 0) rest s)) :=
  (step_command_ok hp (decodeOfEncode (.squeeze 0) rfl)).trans (exec_squeeze 0 rfl)

/-- Settles O38: SQUEEZE 0 hands on the engine it found, so the ABSORB after it finds the phase Absorbing. -/
theorem squeezeZeroIsNoOp : Obligations.SqueezeZeroIsNoOp := by
  refine ⟨fun s hpay => exec_squeeze 0 hpay, fun s p hph hlen hp => ?_⟩
  have hsqueeze := step_squeezeCommand_zero hp
  have habsorb := step_absorbCommand (rest := [])
    (s := respond .ok [] s.engine (startCommand (squeezeCommand 0) [.command (absorbCommand p)] s)) hph hlen rfl
  refine ⟨_, (runSteps_succ 1 hsqueeze).trans (runSteps_succ 0 habsorb), rfl, ?_⟩
  simp [hph]

end Sys2Proof.Machine
end

section
/-! SUPPORT and proofs of the family 46_xof_facade.md: INIT, the step on a decoded command, and the runs of two machines
whose registers S, POS and PHASE agree. -/
namespace Sys2Proof.Machine

/-! ### INIT and the decoded command -/

/-- INIT completes in either phase (46_xof_facade.md R79). -/
theorem exec_init {s : State} (hpay : s.payload = []) :
    exec .init s = .next (respond .ok [] (clearEngine s.engine) s) :=
  withPayload_of_eq _ (congrArg List.length hpay)

/-- The response word of INIT is 0 (46_xof_facade.md R79). -/
theorem responseWord_ok_absorbing_zero : responseWord .ok .absorbing 0 = 0x00000000 := by decide

/-- Settles O42: INIT responds from the cleared engine, and its response word is 0. -/
theorem initCompletes : Obligations.InitCompletes := by
  intro s hpay
  rw [exec_init hpay, respond, clearEngine_phase, clearEngine_pos, responseWord_ok_absorbing_zero]
  rfl

/-- A table word decodes as the command word that the host issues for it. -/
theorem decode_tableCommand {nbits w : Nat} {i : Instr} (h : decodeTableWord nbits w = some i) :
    decode (tableCommand nbits w).word = .ok i := by
  have h' : (decode (tableCommand nbits w).word).toOption = some i := h
  rcases hd : decode (tableCommand nbits w).word with r | j
  · rw [hd] at h'
    cases h'
  · rw [hd] at h'
    exact congrArg Except.ok (Option.some.inj h')

/-- The payload the host issues with a table word is the zero bytes that its command asks for (log entry 2). -/
theorem tableCommand_payload {nbits w : Nat} {i : Instr} (h : decodeTableWord nbits w = some i) :
    (tableCommand nbits w).payload = List.replicate (instrInLength i) 0 :=
  congrArg (List.replicate · 0) (inLength_of_decode (decode_tableCommand h))

/-- Settles O48: the step on a decoded command, and the same step on the command that a table word places. -/
theorem stepRunsDecodedCommand : Obligations.StepRunsDecodedCommand := by
  refine ⟨fun s c rest i hp hd => step_command_ok hp hd, fun s nbits w i h => ?_⟩
  rw [step_command_ok (withFetchWord_pending s nbits w) (decode_tableCommand h), startCommand, tableCommand_payload h]
  rfl

/-! ### Engines with the same registers

The engines differ at most in the model's own count of KeccakF (log entry 4), and no micro-step reads it. -/

theorem Engine.sameRegisters_iff {e e' : Engine} :
    e.sameRegisters e' ↔ ∃ n, e' = { e with permCount := n } := by
  constructor
  · rintro ⟨hlanes, hpos, hphase⟩
    exact ⟨e'.permCount, by rw [hlanes, hpos, hphase]⟩
  · rintro ⟨n, rfl⟩
    exact ⟨rfl, rfl, rfl⟩

theorem clearEngine_sameRegisters (e e' : Engine) : (clearEngine e).sameRegisters (clearEngine e') := ⟨rfl, rfl, rfl⟩

theorem absorbByte_sameRegisters {e e' : Engine} (h : e.sameRegisters e') (b : Byte) :
    (absorbByte e b).sameRegisters (absorbByte e' b) := by
  obtain ⟨n, rfl⟩ := Engine.sameRegisters_iff.1 h
  rcases absorbByte_cases e b with ⟨hlt, hb⟩ | ⟨hlast, hb⟩
  · rw [hb, absorbByte_within (e := { e with permCount := n }) hlt]
    exact ⟨rfl, rfl, rfl⟩
  · rw [hb, absorbByte_last (e := { e with permCount := n }) hlast]
    exact ⟨rfl, rfl, rfl⟩

theorem absorbBytes_sameRegisters {e e' : Engine} (h : e.sameRegisters e') (p : List Byte) :
    (absorbBytes e p).sameRegisters (absorbBytes e' p) := by
  induction p generalizing e e' with
  | nil => exact h
  | cons b p ih => exact ih (absorbByte_sameRegisters h b)

theorem finalize_sameRegisters {e e' : Engine} (h : e.sameRegisters e') : (finalize e).sameRegisters (finalize e') := by
  obtain ⟨n, rfl⟩ := Engine.sameRegisters_iff.1 h
  exact ⟨rfl, rfl, rfl⟩

theorem finalizeIfAbsorbing_sameRegisters {e e' : Engine} (h : e.sameRegisters e') :
    (finalizeIfAbsorbing e).sameRegisters (finalizeIfAbsorbing e') := by
  have ⟨_, _, hphase⟩ := h
  rcases hph : e.phase with _ | _ <;> rw [hph] at hphase
  · rw [finalizeIfAbsorbing_absorbing hph, finalizeIfAbsorbing_absorbing hphase.symm]
    exact finalize_sameRegisters h
  · rw [finalizeIfAbsorbing_squeezing hph, finalizeIfAbsorbing_squeezing hphase.symm]
    exact h

theorem refill_sameRegisters {e e' : Engine} (h : e.sameRegisters e') : (refill e).sameRegisters (refill e') := by
  obtain ⟨n, rfl⟩ := Engine.sameRegisters_iff.1 h
  rcases refill_cases e with ⟨hp, hr⟩ | ⟨hp, hr⟩
  · rw [hr, refill_of_pos_eq_zero (e := { e with permCount := n }) hp]
    exact ⟨rfl, rfl, rfl⟩
  · rw [hr, refill_of_pos_ne (e := { e with permCount := n }) hp]
    exact h

/-- The byte is read at the refilled engine's POS from its lanes, and the cursor moves on from there
(45_sponge_squeeze.md R73). -/
theorem squeezeByte_sameRegisters {e e' : Engine} (h : e.sameRegisters e') :
    (squeezeByte e).1 = (squeezeByte e').1 ∧ (squeezeByte e).2.sameRegisters (squeezeByte e').2 := by
  obtain ⟨hlanes, hpos, hphase⟩ := refill_sameRegisters h
  exact ⟨congrArg₂ (fun S (p : Pos) => readByte S p.val) hlanes hpos, hlanes, congrArg (· + 1) hpos, hphase⟩

theorem squeezeBytes_sameRegisters (n : Nat) {e e' : Engine} (h : e.sameRegisters e') :
    (squeezeBytes n e).1 = (squeezeBytes n e').1 ∧ (squeezeBytes n e).2.sameRegisters (squeezeBytes n e').2 := by
  induction n generalizing e e' with
  | zero => exact ⟨rfl, h⟩
  | succ n ih =>
    obtain ⟨hbyte, hstep⟩ := squeezeByte_sameRegisters h
    obtain ⟨hbytes, hrest⟩ := ih hstep
    exact ⟨congrArg₂ List.cons hbyte hbytes, hrest⟩

theorem squeezeOutput_sameRegisters (len : Nat) {e e' : Engine} (h : e.sameRegisters e') :
    (squeezeOutput len e).1 = (squeezeOutput len e').1 ∧
      (squeezeOutput len e).2.sameRegisters (squeezeOutput len e').2 := by
  rcases len with _ | n
  · exact ⟨rfl, h⟩
  · rw [squeezeOutput_pos n.succ_ne_zero, squeezeOutput_pos n.succ_ne_zero]
    exact squeezeBytes_sameRegisters _ (finalizeIfAbsorbing_sameRegisters h)

/-! ### The reply to a command -/

/-- From equal registers and payloads a legal command gives the same status and output, and leaves equal registers. -/
theorem exec_sameRegisters {i : Instr} {s₁ s₂ t₁ : State} (he : s₁.engine.sameRegisters s₂.engine)
    (hpay : s₁.payload = s₂.payload) (h : exec i s₁ = .next t₁) :
    ∃ st out e₁ e₂, t₁ = respond st out e₁ s₁ ∧ exec i s₂ = .next (respond st out e₂ s₂) ∧ e₁.sameRegisters e₂ := by
  have ⟨_, _, hphase⟩ := he
  rcases exec_cases h with ⟨rfl, hlen, ht⟩ | ⟨len, rfl, hlen, hph, ht⟩ | ⟨len, rfl, hlen, hph, ht⟩ |
    ⟨len, rfl, hlen, ht⟩ <;> rw [hpay] at hlen
  · exact ⟨_, _, _, _, ht, exec_init (List.eq_nil_of_length_eq_zero hlen), clearEngine_sameRegisters _ _⟩
  · exact ⟨_, _, _, _, ht, hpay ▸ exec_absorb_absorbing (hphase ▸ hph) hlen, absorbBytes_sameRegisters he _⟩
  · exact ⟨_, _, _, _, ht, exec_absorb_squeezing (hphase ▸ hph) hlen, he⟩
  · obtain ⟨hout, hengine⟩ := squeezeOutput_sameRegisters len he
    exact ⟨_, _, _, _, ht, hout ▸ exec_squeeze len (List.eq_nil_of_length_eq_zero hlen), hengine⟩

/-- The same for a step on any command, an illegal word included (46_xof_facade.md R80, R82). -/
theorem command_step_sameRegisters {s₁ s₂ t₁ : State} {c : Command} {rest : List HostEvent}
    (he : s₁.engine.sameRegisters s₂.engine) (hp₁ : s₁.pending = .command c :: rest)
    (hp₂ : s₂.pending = .command c :: rest) (h : step s₁ = .next t₁) :
    ∃ st out e₁ e₂, t₁ = respond st out e₁ (startCommand c rest s₁) ∧
      step s₂ = .next (respond st out e₂ (startCommand c rest s₂)) ∧ e₁.sameRegisters e₂ := by
  obtain ⟨hframed, ⟨r, hd, ht⟩ | ⟨i, hd, hx⟩⟩ := command_step_cases hp₁ h
  · exact ⟨_, _, _, _, ht, (step_command_illegal hp₂ hd).trans (withPayload_of_eq _ hframed), he⟩
  · rw [step_command_ok hp₂ hd]
    exact exec_sameRegisters he rfl hx

/-! ### Runs of two machines that agree -/

/-- Two machines agree on all that the host's view rests on: S, POS, PHASE and the host's next events, none of which
abandons a command (46_xof_facade.md R82). -/
structure State.Agrees (s₁ s₂ : State) : Prop where
  registers : s₁.engine.sameRegisters s₂.engine
  pending : s₁.pending = s₂.pending
  notAbandoned : ∀ c, HostEvent.resetDuring c ∉ s₁.pending

/-- Two machines that agreed and have taken their next event agree again if their registers do. -/
theorem State.Agrees.of_registers {s₁ s₂ t₁ t₂ : State} {ev : HostEvent} {rest : List HostEvent} (ha : s₁.Agrees s₂)
    (hp : s₁.pending = ev :: rest) (he : t₁.engine.sameRegisters t₂.engine) (ht₁ : t₁.pending = rest)
    (ht₂ : t₂.pending = rest) : t₁.Agrees t₂ where
  registers := he
  pending := ht₁.trans ht₂.symm
  notAbandoned c hc := ha.notAbandoned c (hp ▸ List.mem_cons_of_mem ev (ht₁ ▸ hc))

/-- A step keeps the agreement and adds the same replies. -/
theorem State.Agrees.step_next {s₁ s₂ t₁ : State} (ha : s₁.Agrees s₂) (h : step s₁ = .next t₁) :
    ∃ t₂ r, step s₂ = .next t₂ ∧ t₁.Agrees t₂ ∧ t₁.replies = s₁.replies ++ r ∧ t₂.replies = s₂.replies ++ r := by
  rcases step_cases h with ⟨hp, rfl⟩ | ⟨c, rest, hp, -⟩ | ⟨rest, hp, rfl⟩ | ⟨c, rest, hp, -⟩ <;>
    have hp₂ := ha.pending.symm.trans hp
  · exact ⟨s₂, [], step_idle hp₂, ha, (List.append_nil _).symm, (List.append_nil _).symm⟩
  · obtain ⟨st, out, e₁, e₂, rfl, hstep, he⟩ := command_step_sameRegisters ha.registers hp hp₂ h
    have ⟨_, hpos, hphase⟩ := he
    refine ⟨_, [.response (responseWord st e₁.phase e₁.pos) out], hstep, ha.of_registers hp he rfl rfl, rfl, ?_⟩
    rw [respond_replies, hpos, hphase, startCommand_replies]
  · exact ⟨_, [], step_reset hp₂, ha.of_registers hp (clearEngine_sameRegisters _ _) rfl rfl,
      (List.append_nil _).symm, (List.append_nil _).symm⟩
  · exact absurd (hp ▸ List.mem_cons_self) (ha.notAbandoned c)

/-- A run that goes on is a step and then the rest of the run. -/
theorem runSteps_succ_next {k : Nat} {s t : State} (h : runSteps (k + 1) s = .next t) :
    ∃ u, step s = .next u ∧ runSteps k u = .next t := by
  rcases hs : step s with u | r | r
  · exact ⟨u, rfl, runSteps_succ k hs ▸ h⟩
  · cases r
  · rw [runSteps_refused k hs] at h
    cases h

/-- Any number of steps keeps the agreement and adds the same replies. -/
theorem State.Agrees.runSteps_next {k : Nat} {s₁ s₂ t₁ : State} (ha : s₁.Agrees s₂)
    (h : runSteps k s₁ = .next t₁) :
    ∃ t₂ r, runSteps k s₂ = .next t₂ ∧ t₁.Agrees t₂ ∧
      t₁.replies = s₁.replies ++ r ∧ t₂.replies = s₂.replies ++ r := by
  induction k generalizing s₁ s₂ with
  | zero =>
    cases h
    exact ⟨s₂, [], rfl, ha, (List.append_nil _).symm, (List.append_nil _).symm⟩
  | succ k ih =>
    obtain ⟨u₁, hstep₁, hrun₁⟩ := runSteps_succ_next h
    obtain ⟨u₂, r, hstep₂, hu, hr₁, hr₂⟩ := ha.step_next hstep₁
    obtain ⟨t₂, r', hrun₂, ht, hr₁', hr₂'⟩ := ih hu hrun₁
    exact ⟨t₂, r ++ r', (runSteps_succ k hstep₂).trans hrun₂, ht, by rw [hr₁', hr₁, List.append_assoc],
      by rw [hr₂', hr₂, List.append_assoc]⟩

/-- Settles O56: the hypotheses are the agreement, and every run keeps it. -/
theorem repliesDependOnlyOnRegisters : Obligations.RepliesDependOnlyOnRegisters := by
  intro k s₁ s₂ t₁ he hp hno h
  obtain ⟨t₂, r, hrun, ht, hr₁, hr₂⟩ := State.Agrees.runSteps_next ⟨he, hp, hno⟩ h
  exact ⟨t₂, r, hrun, ht.registers, hr₁, hr₂⟩

end Sys2Proof.Machine
end

section
/-! SUPPORT and proofs of the family 60_exceptions.md: the status each command ends with, what an error leaves alone, and
the idle engine. -/
namespace Sys2Proof.Machine

/-! ### The status of a command -/

/-- The cause of each status of a command that completes (60_exceptions.md R83). -/
theorem command_step_status {s t : State} {c : Command} {rest : List HostEvent}
    (hp : s.pending = .command c :: rest) (h : step s = .next t) :
    ∃ st out e, t = respond st out e (startCommand c rest s) ∧
      (st = .errIllegal ↔ ∃ r, decode c.word = .error r) ∧
      (st = .errPhase ↔ (∃ L, decode c.word = .ok (.absorb L)) ∧ s.engine.phase = .squeezing) := by
  obtain ⟨-, ⟨r, hd, ht⟩ | ⟨i, hd, hx⟩⟩ := command_step_cases hp h
  · exact ⟨_, _, _, ht, by simp [hd], by simp [hd]⟩
  · rcases exec_cases hx with ⟨rfl, -, ht⟩ | ⟨len, rfl, -, hph, ht⟩ | ⟨len, rfl, -, hph, ht⟩ | ⟨len, rfl, -, ht⟩
    · exact ⟨_, _, _, ht, by simp [hd], by simp [hd]⟩
    · rw [startCommand_engine] at hph
      exact ⟨_, _, _, ht, by simp [hd], by simp [hph]⟩
    · rw [startCommand_engine] at hph
      exact ⟨_, _, _, ht, by simp [hd], by simp [hd, hph]⟩
    · exact ⟨_, _, _, ht, by simp [hd], by simp [hd]⟩

/-- Settles O47: the cause of each status, and a word that is illegal by RSV whatever the phase. -/
theorem statusAndPriority : Obligations.StatusAndPriority := by
  constructor
  · intro s c rest hp hf
    obtain ⟨t, ht⟩ := command_step_completes hp ((framed_iff c).1 hf)
    obtain ⟨st, out, e, rfl, hillegal, hphase⟩ := command_step_status hp ht
    exact ⟨_, st, out, ht, rfl, hillegal, hphase⟩
  · intro s c rest hp hf _ hrsv hph
    obtain ⟨r, hd⟩ := (decode_error_iff c.word).2 (.inr (.inl hrsv))
    have hstep := (step_command_illegal hp hd).trans (withPayload_of_eq _ ((framed_iff c).1 hf))
    exact ⟨_, [], hstep, by rw [raiseError_replies, startCommand_engine, startCommand_replies, hph]⟩

/-! ### What an error leaves alone -/

/-- Settles O46: the response added is the command's own, and with a non-OK status the command responds from the engine
it found, without output. -/
theorem errorsChangeNothing : Obligations.ErrorsChangeNothing := by
  intro s t c rest rsp out hp h hreplies hst
  obtain ⟨st, out', e, rfl, herr⟩ := command_step_responds hp h
  rw [respond_replies, startCommand_replies] at hreplies
  obtain ⟨rfl, rfl⟩ := Reply.response.inj (List.head_eq_of_cons_eq (List.append_cancel_left hreplies))
  have hne : st ≠ .ok := by rwa [rspStatus_responseWord, ne_eq, statusCode_eq_zero_iff] at hst
  obtain ⟨rfl, rfl⟩ := herr hne
  exact ⟨rfl, rfl⟩

/-! ### Idle -/

/-- Settles O50: a step with no event is idle. -/
theorem idleKeepsState : Obligations.IdleKeepsState := fun _ hp => step_idle hp

end Sys2Proof.Machine
end

section
/-! SUPPORT and proofs of the family 70_reset_and_hazards.md: the host that keeps its duties, how much KeccakF one
command runs, the two resets, and a command issued early. -/
namespace Sys2Proof.Machine

/-! ### The host's duties -/

/-- Every step that completes takes one event off the host's list, if there is one (20_memory.md R26, R29). -/
theorem step_pending {s t : State} (h : step s = .next t) : t.pending = s.pending.tail := by
  rcases step_cases h with ⟨hp, rfl⟩ | ⟨c, rest, hp, -⟩ | ⟨rest, hp, rfl⟩ | ⟨c, rest, hp, rfl⟩
  · rw [hp, List.tail_nil]
  · obtain ⟨st, out, e, rfl⟩ := command_step_eq_respond hp h
    rw [hp, respond_pending, startCommand_pending, List.tail_cons]
  · rw [hp, runReset_pending, List.tail_cons]
  · rw [hp, runResetDuring_pending, List.tail_cons]

theorem hostDutiful_iff (s : State) : s.hostDutiful ↔ ∀ ev ∈ s.pending, ev.dutiful = true := List.all_eq_true

/-- The duties that are left are among those that were kept. -/
theorem step_hostDutiful {s t : State} (hs : s.hostDutiful) (h : step s = .next t) : t.hostDutiful := by
  rw [hostDutiful_iff] at hs ⊢
  rw [step_pending h]
  exact fun ev hev => hs ev (List.mem_of_mem_tail hev)

/-- The next event of a host that keeps its duties is never refused (70_reset_and_hazards.md R97). -/
theorem step_completes_of_hostDutiful {s : State} (hs : s.hostDutiful) : ∃ t, step s = .next t := by
  rw [hostDutiful_iff] at hs
  rcases hp : s.pending with _ | ⟨ev, rest⟩
  · exact ⟨s, step_idle hp⟩
  · have hev : ev.dutiful = true := hs ev (hp ▸ List.mem_cons_self)
    cases ev with
    | command c => exact command_step_completes hp ((framed_iff c).1 hev)
    | earlyCommand c => cases hev
    | reset => exact ⟨_, step_reset hp⟩
    | resetDuring c => exact ⟨_, step_resetDuring hp⟩

/-- Settles O54, by induction on the number of steps: each completes and keeps the host dutiful. -/
theorem dutifulHostNeverStops : Obligations.DutifulHostNeverStops := by
  intro k
  induction k with
  | zero => exact fun s hs => ⟨s, rfl, hs⟩
  | succ k ih =>
    intro s hs
    obtain ⟨u, hstep⟩ := step_completes_of_hostDutiful hs
    obtain ⟨t, hrun, ht⟩ := ih u (step_hostDutiful hs hstep)
    exact ⟨t, (runSteps_succ k hstep).trans hrun, ht⟩

/-! ### How much KeccakF one command runs -/

theorem absorbBytes_permCount_le (e : Engine) (p : List Byte) :
    (absorbBytes e p).permCount ≤ e.permCount + p.length / 168 + 1 := by
  have hpos := e.pos.isLt
  rw [absorbBytes_permCount]
  omega

/-- With POS = 0 the first byte runs one KeccakF and each further block one more; otherwise the block at hand has at
least one unread byte, and the bound is the same (45_sponge_squeeze.md R74). -/
theorem squeezeOutput_permCount_le (len : Nat) (e : Engine) :
    (squeezeOutput len e).2.permCount ≤ e.permCount + len / 168 + 1 := by
  rcases len with _ | n
  · exact Nat.le_succ e.permCount
  · have hpos := (finalizeIfAbsorbing e).pos.isLt
    rw [squeezeOutput_pos n.succ_ne_zero, squeezeBytes_permCount, finalizeIfAbsorbing_permCount]
    split <;> omega

/-- LEN of a legal word; INIT has LEN = 0 (30_encoding.md R33, R36). -/
def instrLen : Instr → Nat
  | .init => 0
  | .absorb len => len
  | .squeeze len => len

theorem instrLen_of_decode {cw : Word} {i : Instr} (h : decode cw = .ok i) : instrLen i = cwLen cw := by
  rcases decode_cases cw with ⟨⟨r, hd⟩, -⟩ | ⟨hd, -, -, hl⟩ | ⟨hd, -, -⟩ | ⟨hd, -, -⟩
  · cases hd.symm.trans h
  · obtain rfl := Except.ok.inj (hd.symm.trans h)
    exact hl.symm
  · obtain rfl := Except.ok.inj (hd.symm.trans h)
    rfl
  · obtain rfl := Except.ok.inj (hd.symm.trans h)
    rfl

/-- The bound of 70_reset_and_hazards.md R100 for a legal command that completes. -/
theorem exec_permCount_le {i : Instr} {s t : State} (h : exec i s = .next t) :
    t.engine.permCount ≤ s.engine.permCount + instrLen i / 168 + 1 := by
  rcases exec_cases h with ⟨rfl, -, rfl⟩ | ⟨len, rfl, rfl, -, rfl⟩ | ⟨len, rfl, -, -, rfl⟩ | ⟨len, rfl, -, rfl⟩
  · rw [respond_engine, clearEngine_permCount]
    omega
  · exact absorbBytes_permCount_le s.engine s.payload
  · rw [raiseError_engine]
    omega
  · exact squeezeOutput_permCount_le len s.engine

/-- The same for a step on any command, an illegal word included. -/
theorem command_step_permCount_le {s t : State} {c : Command} {rest : List HostEvent}
    (hp : s.pending = .command c :: rest) (h : step s = .next t) :
    t.engine.permCount ≤ s.engine.permCount + cwLen c.word / 168 + 1 := by
  obtain ⟨-, ⟨r, -, rfl⟩ | ⟨i, hd, hx⟩⟩ := command_step_cases hp h
  · rw [raiseError_engine, startCommand_engine]
    omega
  · have hle := exec_permCount_le hx
    rwa [startCommand_engine, instrLen_of_decode hd] at hle

/-- INIT runs no KeccakF (70_reset_and_hazards.md R100). -/
theorem init_step_permCount {s t : State} {c : Command} {rest : List HostEvent}
    (hp : s.pending = .command c :: rest) (hd : decode c.word = .ok .init) (h : step s = .next t) :
    t.engine.permCount = s.engine.permCount := by
  rw [step_command_ok hp hd] at h
  rw [exec_init_engine h, clearEngine_permCount, startCommand_engine]

/-- Settles O53: a framed command completes with one response, within the bound; an error leaves the engine alone.
KeccakF is defined as the fold over the rounds 0 to 23. -/
theorem commandProgressBound : Obligations.CommandProgressBound := by
  refine ⟨fun s c rest hp hf => ?_, fun A => rfl⟩
  obtain ⟨t, ht⟩ := command_step_completes hp ((framed_iff c).1 hf)
  obtain ⟨st, out, e, hresp, herr⟩ := command_step_responds hp ht
  refine ⟨t, responseWord st e.phase e.pos, out, ht, ?_, command_step_permCount_le hp ht, ?_⟩
  · rw [hresp, respond_replies, startCommand_replies]
  · rintro (hinit | hst)
    · exact init_step_permCount hp hinit ht
    · rw [rspStatus_responseWord, ne_eq, statusCode_eq_zero_iff] at hst
      rw [hresp, respond_engine, (herr hst).1]

/-! ### Reset, and a command issued early -/

/-- An abandoned command adds nothing to the output stream (70_reset_and_hazards.md R95). -/
theorem outputStream_append_abandoned (rs : List Reply) (received : List Byte) :
    outputStream (rs ++ [.abandoned received]) = outputStream rs := by
  rw [outputStream_append]
  exact List.append_nil _

/-- Settles O51: both resets clear the engine, and the one during a command adds only the abandoned record. -/
theorem resetAtAnyTime : Obligations.ResetAtAnyTime :=
  ⟨fun _ _ hp => step_reset hp, fun s _ _ hp =>
    ⟨_, _, step_resetDuring hp, rfl, rfl, rfl, rfl, rfl, rfl, outputStream_append_abandoned s.replies _⟩⟩

/-- Settles O52: an early command is refused by name. -/
theorem earlyCommandRefused : Obligations.EarlyCommandRefused := fun _ _ _ hp => step_early hp

end Sys2Proof.Machine
end
